-- ==== Sys2Proof/Word.lean ====
section
/-! DEFINITION. The value types that cross the block's interface: words, immediates, register indices
and operands, the names of the ten mnemonics, the statuses and the flattened record. -/

namespace Sys2Proof

/-- A 32-bit word, an opaque bit pattern (10_state.md R17). Bit 0 is the least significant. -/
abbrev Word := BitVec 32

/-- An immediate: 32 bits read as two's complement with `BitVec.toInt` (00_scope.md R5, `IMM_W`; log 7). -/
abbrev S32 := BitVec 32

/-- A register index inside a word or a record: 5 bits, data only (10_state.md R12). -/
abbrev RegIdx := BitVec 5

/-- A register operand at an encode entry point: 8 bits, unsigned (00_scope.md R5, `REG_ARG_W`; log 7). -/
abbrev RegArg := BitVec 8

/-- The ten mnemonics, one per encode entry point and per variant (00_scope.md R1; 10_state.md R15). -/
inductive Mnemonic where
  | add | sub | addi | jalr | lw | sw | beq | lui | auipc | jal
  deriving DecidableEq, Repr

/-- The four errors the block returns (60_exceptions.md R170 to R174). -/
inductive CodecError where
  /-- A register operand is 32 or more; encode only (R171). -/
  | badReg
  /-- The immediate is outside the mnemonic's accepted set; encode only (R172). -/
  | immOutOfRange
  /-- The opcode is none of the nine; decode only (R173). -/
  | badOpcode
  /-- The opcode is recognised and its funct bits are not; decode only (R174). -/
  | badFunct
  deriving DecidableEq, Repr

/-- The seven statuses of the boundary, in the source's order (60_exceptions.md R170). -/
inductive Status where
  | ok | badReg | immOutOfRange | badOpcode | badFunct
  /-- Raised by the boundary adapter only (R175). -/
  | nullOutputPointer
  /-- Reserved; on the ports only, for a reserved `enc_sel` (R176, 44_interfaces.md R158). -/
  | unknown
  deriving DecidableEq, Repr

/-- The flattened record: a variant code, three register fields, one immediate
(44_interfaces.md R152, R160). -/
structure FlatRecord where
  /-- `dec_variant`, a code of 44_interfaces.md R153, or 15 for no variant. -/
  variant : BitVec 4
  /-- `dec_rd`. -/
  rd : RegIdx
  /-- `dec_rs1`. -/
  rs1 : RegIdx
  /-- `dec_rs2`. -/
  rs2 : RegIdx
  /-- `dec_imm`. -/
  imm : S32
  deriving DecidableEq, Repr, Inhabited

end Sys2Proof
end

