-- ==== Sys2Proof/Syntax.lean ====
section
/-! DEFINITION. The Instruction record: the closed sum of ten variants, each with only the fields its
format has, in the source's order (10_state.md R15). -/

namespace Sys2Proof

/-- An Instruction (10_state.md R15). The immediate of `lui` and `auipc` is the 20-bit field value itself,
not shifted; the immediates of `beq` and `jal` are byte offsets. -/
inductive Instr where
  | add (rd rs1 rs2 : RegIdx)
  | sub (rd rs1 rs2 : RegIdx)
  | addi (rd rs1 : RegIdx) (imm : S32)
  | jalr (rd rs1 : RegIdx) (imm : S32)
  | lw (rd rs1 : RegIdx) (imm : S32)
  | sw (rs1 rs2 : RegIdx) (imm : S32)
  | beq (rs1 rs2 : RegIdx) (imm : S32)
  | lui (rd : RegIdx) (imm : S32)
  | auipc (rd : RegIdx) (imm : S32)
  | jal (rd : RegIdx) (imm : S32)
  deriving DecidableEq, Repr

/-- The variant of a record. -/
def Instr.mnemonic : Instr → Mnemonic
  | .add _ _ _ => .add
  | .sub _ _ _ => .sub
  | .addi _ _ _ => .addi
  | .jalr _ _ _ => .jalr
  | .lw _ _ _ => .lw
  | .sw _ _ _ => .sw
  | .beq _ _ _ => .beq
  | .lui _ _ => .lui
  | .auipc _ _ => .auipc
  | .jal _ _ => .jal

end Sys2Proof
end

