-- ==== Sys2Proof/WellFormed.lean ====
section
/-! DEFINITION. Well-formed records (10_state.md R16): each immediate is in the signed range of its
format, and the Beq and Jal immediates are even. Register fields are in range by their type. -/

namespace Sys2Proof

/-- Formats I and S: -2048 to 2047 (10_state.md R16). -/
def immFits12 (imm : S32) : Bool := decide (-2048 ≤ imm.toInt ∧ imm.toInt ≤ 2047)

/-- Format B: even, -4096 to 4094 (10_state.md R16). -/
def immFitsBranch (imm : S32) : Bool :=
  decide (-4096 ≤ imm.toInt ∧ imm.toInt ≤ 4094) && !imm.getLsbD 0

/-- Format U: -524288 to 524287 (10_state.md R16). -/
def immFits20 (imm : S32) : Bool := decide (-524288 ≤ imm.toInt ∧ imm.toInt ≤ 524287)

/-- Format J: even, -1048576 to 1048574 (10_state.md R16). -/
def immFitsJump (imm : S32) : Bool :=
  decide (-1048576 ≤ imm.toInt ∧ imm.toInt ≤ 1048574) && !imm.getLsbD 0

/-- The accepted immediates of a mnemonic (10_state.md R16, 42_encoder.md R114); Add and Sub have none. -/
def immAccepted : Mnemonic → S32 → Bool
  | .add, _ => true
  | .sub, _ => true
  | .addi, imm => immFits12 imm
  | .jalr, imm => immFits12 imm
  | .lw, imm => immFits12 imm
  | .sw, imm => immFits12 imm
  | .beq, imm => immFitsBranch imm
  | .lui, imm => immFits20 imm
  | .auipc, imm => immFits20 imm
  | .jal, imm => immFitsJump imm

/-- A well-formed record (10_state.md R16). -/
def Instr.wellFormed : Instr → Bool
  | .add _ _ _ => true
  | .sub _ _ _ => true
  | .addi _ _ imm => immAccepted .addi imm
  | .jalr _ _ imm => immAccepted .jalr imm
  | .lw _ _ imm => immAccepted .lw imm
  | .sw _ _ imm => immAccepted .sw imm
  | .beq _ _ imm => immAccepted .beq imm
  | .lui _ imm => immAccepted .lui imm
  | .auipc _ imm => immAccepted .auipc imm
  | .jal _ imm => immAccepted .jal imm

end Sys2Proof
end

