-- ==== Sys2Proof/Decode.lean ====
section
/-! DEFINITION. The codec itself: the constant tables, the field extractors, the immediate codec, the
immediate assemblers and the decoder; then the format packers and the encoder.
Follows 30_encoding.md, 40_extractors_and_immediate_codec.md, 41_format_packers.md, 42_encoder.md and
43_decoder.md. -/

namespace Sys2Proof

/-! ### The constant tables (30_encoding.md R39; the values other than Add's are the spec's D2, log 4) -/

/-- OP: Add and Sub. -/
def opcodeOp : BitVec 7 := 0b0110011#7
/-- OP-IMM: Addi. -/
def opcodeOpImm : BitVec 7 := 0b0010011#7
/-- JALR: Jalr. -/
def opcodeJalr : BitVec 7 := 0b1100111#7
/-- LOAD: Lw. -/
def opcodeLoad : BitVec 7 := 0b0000011#7
/-- STORE: Sw. -/
def opcodeStore : BitVec 7 := 0b0100011#7
/-- BRANCH: Beq. -/
def opcodeBranch : BitVec 7 := 0b1100011#7
/-- LUI: Lui. -/
def opcodeLui : BitVec 7 := 0b0110111#7
/-- AUIPC: Auipc. -/
def opcodeAuipc : BitVec 7 := 0b0010111#7
/-- JAL: Jal. -/
def opcodeJal : BitVec 7 := 0b1101111#7

/-- funct3 of Add and Sub. -/
def funct3Op : BitVec 3 := 0b000#3
/-- funct3 of Addi. -/
def funct3Addi : BitVec 3 := 0b000#3
/-- funct3 of Jalr. -/
def funct3Jalr : BitVec 3 := 0b000#3
/-- funct3 of Lw. -/
def funct3Lw : BitVec 3 := 0b010#3
/-- funct3 of Sw. -/
def funct3Sw : BitVec 3 := 0b010#3
/-- funct3 of Beq. -/
def funct3Beq : BitVec 3 := 0b000#3

/-- funct7 of Add. -/
def funct7Add : BitVec 7 := 0b0000000#7
/-- funct7 of Sub. -/
def funct7Sub : BitVec 7 := 0b0100000#7

/-- The nine recognised opcodes (30_encoding.md R39, R40). -/
def recognisedOpcodes : List (BitVec 7) :=
  [opcodeOp, opcodeOpImm, opcodeJalr, opcodeLoad, opcodeStore, opcodeBranch, opcodeLui, opcodeAuipc,
    opcodeJal]

/-- The mask of a mnemonic's row (30_encoding.md R40). -/
def maskWord : Mnemonic → Word
  | .add => 0xFE00707F#32
  | .sub => 0xFE00707F#32
  | .addi => 0x0000707F#32
  | .jalr => 0x0000707F#32
  | .lw => 0x0000707F#32
  | .sw => 0x0000707F#32
  | .beq => 0x0000707F#32
  | .lui => 0x0000007F#32
  | .auipc => 0x0000007F#32
  | .jal => 0x0000007F#32

/-- The match of a mnemonic's row (30_encoding.md R40). -/
def matchWord : Mnemonic → Word
  | .add => 0x00000033#32
  | .sub => 0x40000033#32
  | .addi => 0x00000013#32
  | .jalr => 0x00000067#32
  | .lw => 0x00002003#32
  | .sw => 0x00002023#32
  | .beq => 0x00000063#32
  | .lui => 0x00000037#32
  | .auipc => 0x00000017#32
  | .jal => 0x0000006F#32

/-- The word belongs to the mnemonic's row: `w & mask = match` (30_encoding.md R40). -/
def matchesRow (m : Mnemonic) (w : Word) : Bool := w &&& maskWord m == matchWord m

/-! ### Field extractors (40_extractors_and_immediate_codec.md R60 to R65) -/

/-- `opcode(w) = w[6:0]` (R60). -/
def Field.opcode (w : Word) : BitVec 7 := w.extractLsb 6 0
/-- `rd(w) = w[11:7]` (R61). -/
def Field.rd (w : Word) : RegIdx := w.extractLsb 11 7
/-- `funct3(w) = w[14:12]` (R62). -/
def Field.funct3 (w : Word) : BitVec 3 := w.extractLsb 14 12
/-- `rs1(w) = w[19:15]` (R63). -/
def Field.rs1 (w : Word) : RegIdx := w.extractLsb 19 15
/-- `rs2(w) = w[24:20]` (R64). -/
def Field.rs2 (w : Word) : RegIdx := w.extractLsb 24 20
/-- `funct7(w) = w[31:25]` (R65). -/
def Field.funct7 (w : Word) : BitVec 7 := w.extractLsb 31 25

/-! ### Immediate codec (40_extractors_and_immediate_codec.md R67 to R73) -/

/-- `sign_extend(value, width)`: a left shift into the top bit, then an arithmetic right shift by the
same amount (R67). The width is in 1 to 32 by the proof each call carries (R69; log 8). -/
def signExtend (value : Word) (width : Nat) (_domain : 1 ≤ width ∧ width ≤ 32 := by decide) : S32 :=
  (value <<< (32 - width)).sshiftRight (32 - width)

/-- `check_imm_range(value, bits)`: a signed comparison of the whole value with the two bounds (R70).
The width is in 1 to 31 by the proof each call carries (R69; log 8). -/
def checkImmRange (value : S32) (bits : Nat) (_domain : 1 ≤ bits ∧ bits ≤ 31 := by decide) :
    Except CodecError Unit :=
  if value.toInt < -(2 ^ (bits - 1)) ∨ value.toInt > 2 ^ (bits - 1) - 1 then .error .immOutOfRange
  else .ok ()

/-- `check_reg(r)` (R72). -/
def checkReg (r : RegArg) : Except CodecError Unit :=
  if r.toNat ≥ 32 then .error .badReg else .ok ()

/-- The bit-0 test of Beq and Jal: an odd immediate cannot be represented (42_encoder.md R100, R112). -/
def checkEven (imm : S32) : Except CodecError Unit :=
  if imm.getLsbD 0 then .error .immOutOfRange else .ok ()

/-! ### Immediate assemblers (41_format_packers.md R88 to R92) -/

/-- `imm_I(w)` (R88). -/
def immI (w : Word) : S32 := signExtend ((w.extractLsb 31 20).setWidth 32) 12

/-- `imm_S(w)` (R89). -/
def immS (w : Word) : S32 := signExtend ((w.extractLsb 31 25 ++ w.extractLsb 11 7).setWidth 32) 12

/-- `imm_B(w)`: bit 0 is the constant 0 (R90). -/
def immB (w : Word) : S32 :=
  signExtend
    ((w.extractLsb 31 31 ++ w.extractLsb 7 7 ++ w.extractLsb 30 25 ++ w.extractLsb 11 8 ++ 0#1).setWidth
      32) 13

/-- `imm_U(w)`: an arithmetic right shift of the whole word by 12, so signed and not shifted left
(R91, the spec's D4; log 6). -/
def immU (w : Word) : S32 := w.sshiftRight 12

/-- `imm_J(w)`: bit 0 is the constant 0 (R92). -/
def immJ (w : Word) : S32 :=
  signExtend
    ((w.extractLsb 31 31 ++ w.extractLsb 19 12 ++ w.extractLsb 20 20 ++ w.extractLsb 30 21 ++
      0#1).setWidth 32) 21

/-! ### The decoder (43_decoder.md R120 to R140) -/

/-- Opcode OP: the pair (funct3, funct7) selects Add or Sub (R122, R124, R125). -/
def decodeOp (w : Word) : Except CodecError Instr :=
  if Field.funct3 w = funct3Op ∧ Field.funct7 w = funct7Add then
    .ok (.add (Field.rd w) (Field.rs1 w) (Field.rs2 w))
  else if Field.funct3 w = funct3Op ∧ Field.funct7 w = funct7Sub then
    .ok (.sub (Field.rd w) (Field.rs1 w) (Field.rs2 w))
  else .error .badFunct

/-- Opcode OP-IMM (R126). -/
def decodeOpImm (w : Word) : Except CodecError Instr :=
  if Field.funct3 w = funct3Addi then .ok (.addi (Field.rd w) (Field.rs1 w) (immI w))
  else .error .badFunct

/-- Opcode JALR (R127); that funct3 is matched here is the spec's D3 (log 5). -/
def decodeJalr (w : Word) : Except CodecError Instr :=
  if Field.funct3 w = funct3Jalr then .ok (.jalr (Field.rd w) (Field.rs1 w) (immI w))
  else .error .badFunct

/-- Opcode LOAD (R128). -/
def decodeLoad (w : Word) : Except CodecError Instr :=
  if Field.funct3 w = funct3Lw then .ok (.lw (Field.rd w) (Field.rs1 w) (immI w))
  else .error .badFunct

/-- Opcode STORE (R129). -/
def decodeStore (w : Word) : Except CodecError Instr :=
  if Field.funct3 w = funct3Sw then .ok (.sw (Field.rs1 w) (Field.rs2 w) (immS w))
  else .error .badFunct

/-- Opcode BRANCH (R130). -/
def decodeBranch (w : Word) : Except CodecError Instr :=
  if Field.funct3 w = funct3Beq then .ok (.beq (Field.rs1 w) (Field.rs2 w) (immB w))
  else .error .badFunct

/-- The decoder, total over all words: opcode first, then the funct match of that opcode, then the
construction of the record (R121, R122, R123, R140). The last arm is the only source of BadOpcode. -/
def decode (w : Word) : Except CodecError Instr :=
  if Field.opcode w = opcodeOp then decodeOp w
  else if Field.opcode w = opcodeOpImm then decodeOpImm w
  else if Field.opcode w = opcodeJalr then decodeJalr w
  else if Field.opcode w = opcodeLoad then decodeLoad w
  else if Field.opcode w = opcodeStore then decodeStore w
  else if Field.opcode w = opcodeBranch then decodeBranch w
  else if Field.opcode w = opcodeLui then .ok (.lui (Field.rd w) (immU w))
  else if Field.opcode w = opcodeAuipc then .ok (.auipc (Field.rd w) (immU w))
  else if Field.opcode w = opcodeJal then .ok (.jal (Field.rd w) (immJ w))
  else .error .badOpcode

/-- The instruction the decoder reads from a table word. A word has no byte order (20_memory.md R21), so
it is handed over whole; bits above `nbits` are those of `w`, which has none there (log 15). -/
def decodeTableWord (_nbits w : Nat) : Option Instr :=
  match decode (BitVec.ofNat 32 w) with
  | .ok i => some i
  | .error _ => none

/-! ### Format packers (41_format_packers.md R80 to R87) -/

/-- `pack_R` (R80; layout 30_encoding.md R32). -/
def packR (funct7 : BitVec 7) (rs2 rs1 : RegIdx) (funct3 : BitVec 3) (rd : RegIdx) (opcode : BitVec 7) :
    Word :=
  funct7 ++ rs2 ++ rs1 ++ funct3 ++ rd ++ opcode

/-- `pack_I` (R81; layout 30_encoding.md R33). -/
def packI (imm : S32) (rs1 : RegIdx) (funct3 : BitVec 3) (rd : RegIdx) (opcode : BitVec 7) : Word :=
  imm.extractLsb 11 0 ++ rs1 ++ funct3 ++ rd ++ opcode

/-- `pack_S` (R82; layout 30_encoding.md R34). -/
def packS (imm : S32) (rs2 rs1 : RegIdx) (funct3 : BitVec 3) (opcode : BitVec 7) : Word :=
  imm.extractLsb 11 5 ++ rs2 ++ rs1 ++ funct3 ++ imm.extractLsb 4 0 ++ opcode

/-- `pack_B`; bit 0 of the immediate is dropped (R83; layout 30_encoding.md R35). -/
def packB (imm : S32) (rs2 rs1 : RegIdx) (funct3 : BitVec 3) (opcode : BitVec 7) : Word :=
  imm.extractLsb 12 12 ++ imm.extractLsb 10 5 ++ rs2 ++ rs1 ++ funct3 ++ imm.extractLsb 4 1 ++
    imm.extractLsb 11 11 ++ opcode

/-- `pack_U` (R84; layout 30_encoding.md R36). -/
def packU (imm : S32) (rd : RegIdx) (opcode : BitVec 7) : Word :=
  imm.extractLsb 19 0 ++ rd ++ opcode

/-- `pack_J`; bit 0 of the immediate is dropped (R85; layout 30_encoding.md R37). -/
def packJ (imm : S32) (rd : RegIdx) (opcode : BitVec 7) : Word :=
  imm.extractLsb 20 20 ++ imm.extractLsb 10 1 ++ imm.extractLsb 11 11 ++ imm.extractLsb 19 12 ++ rd ++
    opcode

/-! ### The encoder (42_encoder.md R100 to R111) -/

/-- `r[4:0]`, the index a checked register operand carries (R102). -/
def regIndex (r : RegArg) : RegIdx := r.extractLsb 4 0

/-- `encode_add` (R102). -/
def encodeAdd (rd rs1 rs2 : RegArg) : Except CodecError Word := do
  checkReg rd
  checkReg rs1
  checkReg rs2
  return packR funct7Add (regIndex rs2) (regIndex rs1) funct3Op (regIndex rd) opcodeOp

/-- `encode_sub` (R103). -/
def encodeSub (rd rs1 rs2 : RegArg) : Except CodecError Word := do
  checkReg rd
  checkReg rs1
  checkReg rs2
  return packR funct7Sub (regIndex rs2) (regIndex rs1) funct3Op (regIndex rd) opcodeOp

/-- `encode_addi` (R104). -/
def encodeAddi (rd rs1 : RegArg) (imm : S32) : Except CodecError Word := do
  checkReg rd
  checkReg rs1
  checkImmRange imm 12
  return packI imm (regIndex rs1) funct3Addi (regIndex rd) opcodeOpImm

/-- `encode_jalr`; the immediate may be odd (R105). -/
def encodeJalr (rd rs1 : RegArg) (imm : S32) : Except CodecError Word := do
  checkReg rd
  checkReg rs1
  checkImmRange imm 12
  return packI imm (regIndex rs1) funct3Jalr (regIndex rd) opcodeJalr

/-- `encode_lw` (R106). -/
def encodeLw (rd rs1 : RegArg) (imm : S32) : Except CodecError Word := do
  checkReg rd
  checkReg rs1
  checkImmRange imm 12
  return packI imm (regIndex rs1) funct3Lw (regIndex rd) opcodeLoad

/-- `encode_sw`: base register first, stored register second (R107; 30_encoding.md R45, the spec's D20;
log 13). -/
def encodeSw (rs1 rs2 : RegArg) (imm : S32) : Except CodecError Word := do
  checkReg rs1
  checkReg rs2
  checkImmRange imm 12
  return packS imm (regIndex rs2) (regIndex rs1) funct3Sw opcodeStore

/-- `encode_beq` (R108). -/
def encodeBeq (rs1 rs2 : RegArg) (imm : S32) : Except CodecError Word := do
  checkReg rs1
  checkReg rs2
  checkEven imm
  checkImmRange imm 13
  return packB imm (regIndex rs2) (regIndex rs1) funct3Beq opcodeBranch

/-- `encode_lui`: the immediate is the signed 20-bit field value (R109). -/
def encodeLui (rd : RegArg) (imm : S32) : Except CodecError Word := do
  checkReg rd
  checkImmRange imm 20
  return packU imm (regIndex rd) opcodeLui

/-- `encode_auipc` (R110). -/
def encodeAuipc (rd : RegArg) (imm : S32) : Except CodecError Word := do
  checkReg rd
  checkImmRange imm 20
  return packU imm (regIndex rd) opcodeAuipc

/-- `encode_jal` (R111). -/
def encodeJal (rd : RegArg) (imm : S32) : Except CodecError Word := do
  checkReg rd
  checkEven imm
  checkImmRange imm 21
  return packJ imm (regIndex rd) opcodeJal

/-- A record's index as an operand of an entry point (zero extension). -/
def regArg (r : RegIdx) : RegArg := r.setWidth 8

/-- Encode a record: the entry point of its variant, applied to its fields (43_decoder.md R137, R138). -/
def encode : Instr → Except CodecError Word
  | .add rd rs1 rs2 => encodeAdd (regArg rd) (regArg rs1) (regArg rs2)
  | .sub rd rs1 rs2 => encodeSub (regArg rd) (regArg rs1) (regArg rs2)
  | .addi rd rs1 imm => encodeAddi (regArg rd) (regArg rs1) imm
  | .jalr rd rs1 imm => encodeJalr (regArg rd) (regArg rs1) imm
  | .lw rd rs1 imm => encodeLw (regArg rd) (regArg rs1) imm
  | .sw rs1 rs2 imm => encodeSw (regArg rs1) (regArg rs2) imm
  | .beq rs1 rs2 imm => encodeBeq (regArg rs1) (regArg rs2) imm
  | .lui rd imm => encodeLui (regArg rd) imm
  | .auipc rd imm => encodeAuipc (regArg rd) imm
  | .jal rd imm => encodeJal (regArg rd) imm

end Sys2Proof
end

