-- ==== Sys2Proof/Machine/Flags.lean ====
section
/-! DEFINITION. The block has no flags; the outcome of an operation is its returned status
(10_state.md, state inventory B3). This file holds the numeric codes of the statuses and the variants on
the ports. -/

namespace Sys2Proof.Machine

/-- The status an error is reported as (60_exceptions.md R170). -/
def errorStatus : CodecError → Status
  | .badReg => .badReg
  | .immOutOfRange => .immOutOfRange
  | .badOpcode => .badOpcode
  | .badFunct => .badFunct

/-- The 3-bit code of a status on `enc_status` and `dec_status` (60_exceptions.md R185, the spec's D10;
log 9). -/
def statusCode : Status → BitVec 3
  | .ok => 0#3
  | .badReg => 1#3
  | .immOutOfRange => 2#3
  | .badOpcode => 3#3
  | .badFunct => 4#3
  | .nullOutputPointer => 5#3
  | .unknown => 6#3

/-- The 4-bit code of a mnemonic on `enc_sel` and `dec_variant` (44_interfaces.md R153, the spec's D9;
log 9). -/
def variantCode : Mnemonic → BitVec 4
  | .add => 0#4
  | .sub => 1#4
  | .addi => 2#4
  | .jalr => 3#4
  | .lw => 4#4
  | .sw => 5#4
  | .beq => 6#4
  | .lui => 7#4
  | .auipc => 8#4
  | .jal => 9#4

/-- "No variant" on `dec_variant` (44_interfaces.md R153, R155). -/
def noVariant : BitVec 4 := 15#4

/-- The entry point `enc_sel` selects; the codes 10 to 15 are reserved and select none
(44_interfaces.md R153, R158). -/
def mnemonicOfSel (sel : BitVec 4) : Option Mnemonic :=
  match sel.toNat with
  | 0 => some .add
  | 1 => some .sub
  | 2 => some .addi
  | 3 => some .jalr
  | 4 => some .lw
  | 5 => some .sw
  | 6 => some .beq
  | 7 => some .lui
  | 8 => some .auipc
  | 9 => some .jal
  | _ => none

end Sys2Proof.Machine
end

