-- ==== Sys2Proof/Machine/Operands.lean ====
section
/-! DEFINITION. Operand forms: which operands each mnemonic takes, the encoder over a common operand
bundle, and the flattened record of each format with its zero fill. -/

namespace Sys2Proof.Machine

/-- The mnemonic has an operand `rd` (30_encoding.md R45). -/
def takesRd : Mnemonic → Bool
  | .add => true
  | .sub => true
  | .addi => true
  | .jalr => true
  | .lw => true
  | .sw => false
  | .beq => false
  | .lui => true
  | .auipc => true
  | .jal => true

/-- The mnemonic has an operand `rs1` (30_encoding.md R45). -/
def takesRs1 : Mnemonic → Bool
  | .add => true
  | .sub => true
  | .addi => true
  | .jalr => true
  | .lw => true
  | .sw => true
  | .beq => true
  | .lui => false
  | .auipc => false
  | .jal => false

/-- The mnemonic has an operand `rs2` (30_encoding.md R45). -/
def takesRs2 : Mnemonic → Bool
  | .add => true
  | .sub => true
  | .addi => false
  | .jalr => false
  | .lw => false
  | .sw => true
  | .beq => true
  | .lui => false
  | .auipc => false
  | .jal => false

/-- The mnemonic has an operand `imm` (30_encoding.md R45). -/
def takesImm : Mnemonic → Bool
  | .add => false
  | .sub => false
  | .addi => true
  | .jalr => true
  | .lw => true
  | .sw => true
  | .beq => true
  | .lui => true
  | .auipc => true
  | .jal => true

/-- The ten entry points over one operand bundle. An operand the mnemonic does not take is ignored:
neither validated nor placed (44_interfaces.md R150, R157). -/
def encodeBy (m : Mnemonic) (rd rs1 rs2 : RegArg) (imm : S32) : Except CodecError Word :=
  match m with
  | .add => encodeAdd rd rs1 rs2
  | .sub => encodeSub rd rs1 rs2
  | .addi => encodeAddi rd rs1 imm
  | .jalr => encodeJalr rd rs1 imm
  | .lw => encodeLw rd rs1 imm
  | .sw => encodeSw rs1 rs2 imm
  | .beq => encodeBeq rs1 rs2 imm
  | .lui => encodeLui rd imm
  | .auipc => encodeAuipc rd imm
  | .jal => encodeJal rd imm

/-- Format R on the record ports: no immediate (44_interfaces.md R156). -/
def flatR (m : Mnemonic) (rd rs1 rs2 : RegIdx) : FlatRecord :=
  { variant := variantCode m, rd := rd, rs1 := rs1, rs2 := rs2, imm := 0#32 }

/-- Format I on the record ports: no `rs2` (44_interfaces.md R156). -/
def flatI (m : Mnemonic) (rd rs1 : RegIdx) (imm : S32) : FlatRecord :=
  { variant := variantCode m, rd := rd, rs1 := rs1, rs2 := 0#5, imm := imm }

/-- Formats S and B on the record ports: no `rd` (44_interfaces.md R156). -/
def flatSB (m : Mnemonic) (rs1 rs2 : RegIdx) (imm : S32) : FlatRecord :=
  { variant := variantCode m, rd := 0#5, rs1 := rs1, rs2 := rs2, imm := imm }

/-- Formats U and J on the record ports: no `rs1`, no `rs2` (44_interfaces.md R156). -/
def flatUJ (m : Mnemonic) (rd : RegIdx) (imm : S32) : FlatRecord :=
  { variant := variantCode m, rd := rd, rs1 := 0#5, rs2 := 0#5, imm := imm }

/-- The flattened form of a record (44_interfaces.md R156, R160). -/
def flatten : Instr → FlatRecord
  | .add rd rs1 rs2 => flatR .add rd rs1 rs2
  | .sub rd rs1 rs2 => flatR .sub rd rs1 rs2
  | .addi rd rs1 imm => flatI .addi rd rs1 imm
  | .jalr rd rs1 imm => flatI .jalr rd rs1 imm
  | .lw rd rs1 imm => flatI .lw rd rs1 imm
  | .sw rs1 rs2 imm => flatSB .sw rs1 rs2 imm
  | .beq rs1 rs2 imm => flatSB .beq rs1 rs2 imm
  | .lui rd imm => flatUJ .lui rd imm
  | .auipc rd imm => flatUJ .auipc rd imm
  | .jal rd imm => flatUJ .jal rd imm

/-- The record ports when decode failed: no variant, zeros (44_interfaces.md R155, the spec's D11;
log 9). -/
def noRecord : FlatRecord :=
  { variant := noVariant, rd := 0#5, rs1 := 0#5, rs2 := 0#5, imm := 0#32 }

end Sys2Proof.Machine
end

