-- ==== Sys2Proof/Machine/State.lean ====
section
/-! DEFINITION. The state: the values on the block's ports, and nothing else, since the block has no
storage (10_state.md R10 to R14; 44_interfaces.md R151, R152, R154; log 1). -/

namespace Sys2Proof.Machine

/-- The encoder unit's input ports (44_interfaces.md R151). -/
structure EncIn where
  /-- `enc_sel`: the code of the entry point invoked (R153). -/
  sel : BitVec 4
  /-- `enc_rd`. -/
  rd : RegArg
  /-- `enc_rs1`. -/
  rs1 : RegArg
  /-- `enc_rs2`. -/
  rs2 : RegArg
  /-- `enc_imm`. -/
  imm : S32
  deriving DecidableEq, Repr

/-- The encoder unit's output ports (44_interfaces.md R151). -/
structure EncOut where
  /-- `enc_status`, a code of 60_exceptions.md R185. -/
  status : BitVec 3
  /-- `enc_word`. -/
  word : Word
  deriving DecidableEq, Repr

/-- The decoder unit's output ports (44_interfaces.md R152). -/
structure DecOut where
  /-- `dec_status`, a code of 60_exceptions.md R185. -/
  status : BitVec 3
  /-- `dec_variant`, `dec_rd`, `dec_rs1`, `dec_rs2`, `dec_imm`: the flattened record. -/
  record : FlatRecord
  deriving DecidableEq, Repr

/-- The ports of both units. The inputs are the environment's; a step drives the outputs (log 1, log 2). -/
structure State where
  /-- The encoder's inputs. -/
  encIn : EncIn
  /-- The encoder's outputs. -/
  encOut : EncOut
  /-- `dec_word`, the decoder's input. -/
  decWord : Word
  /-- The decoder's outputs. -/
  decOut : DecOut
  deriving DecidableEq, Repr

/-- Why the machine stops with a fault: never. The block has no trap and no input makes it do anything but
return a result or an error status (60_exceptions.md R180, R184), so the type is empty. -/
inductive Fault
  deriving DecidableEq, Repr

/-- Why a step has no meaning. -/
inductive Refusal where
  /-- An instruction of the opcode table without a meaning in this model, by its mnemonic; raised by an
  arm of `exec` only, and by none now. Safe: the run stops. -/
  | notModelled (mnemonic : String)
  deriving DecidableEq, Repr

/-- Right after reset. There is nothing for a reset to set (10_state.md R19, 70_reset_and_hazards.md
R190): the inputs are whatever the environment drives, here zero (DESIGN CHOICE, log 3), and the outputs
are the function of those inputs: `encode_add(0,0,0)` is Ok(0x00000033), `decode(0)` is BadOpcode. -/
def State.reset : State where
  encIn := { sel := 0#4, rd := 0#8, rs1 := 0#8, rs2 := 0#8, imm := 0#32 }
  encOut := { status := 0#3, word := 0x00000033#32 }
  decWord := 0#32
  decOut :=
    { status := 3#3, record := { variant := 15#4, rd := 0#5, rs1 := 0#5, rs2 := 0#5, imm := 0#32 } }

end Sys2Proof.Machine
end

