-- ==== Sys2Proof/Machine/Ops.lean ====
section
/-! DEFINITION. The named operations on the ports: the two units as functions, driving their outputs,
reporting an error, and presenting inputs. -/

namespace Sys2Proof.Machine

/-- The encoder unit: its output ports as a function of its input ports. A failed operation drives word 0,
a reserved `enc_sel` drives status Unknown and word 0 (44_interfaces.md R151, R155, R158). -/
def encoderUnit (p : EncIn) : EncOut :=
  match mnemonicOfSel p.sel with
  | none => { status := statusCode .unknown, word := 0#32 }
  | some m =>
    match encodeBy m p.rd p.rs1 p.rs2 p.imm with
    | .ok w => { status := statusCode .ok, word := w }
    | .error e => { status := statusCode (errorStatus e), word := 0#32 }

/-- The decoder's output ports for a record (44_interfaces.md R152, R156). -/
def recordOut (r : FlatRecord) : DecOut := { status := statusCode .ok, record := r }

/-- The decoder's output ports for an error (44_interfaces.md R152, R155). -/
def errorOut (e : CodecError) : DecOut := { status := statusCode (errorStatus e), record := noRecord }

/-- The decoder unit: its output ports as a function of its input port (44_interfaces.md R152). -/
def decoderUnit (w : Word) : DecOut :=
  match decode w with
  | .ok i => recordOut (flatten i)
  | .error e => errorOut e

/-- The encoder unit drives its outputs from its inputs (44_interfaces.md R151). -/
def settleEncoder (s : State) : State := { s with encOut := encoderUnit s.encIn }

/-- The decoder unit drives a record: the shared operation under every instruction's meaning
(43_decoder.md R123, 44_interfaces.md R152, R156). -/
def driveRecord (r : FlatRecord) (s : State) : State := { s with decOut := recordOut r }

/-- The decoder unit reports an error. This is all an exceptional outcome is in this hardware: a returned
status, with nothing saved, no mode changed and no transfer of control (60_exceptions.md R177, R180). -/
def reportError (e : CodecError) (s : State) : State := { s with decOut := errorOut e }

/-- The environment presents a word to the decoder (20_memory.md R26). -/
def presentWord (w : Word) (s : State) : State := { s with decWord := w }

/-- The environment presents an operation to the encoder (44_interfaces.md R151). -/
def presentEncode (p : EncIn) (s : State) : State := { s with encIn := p }

end Sys2Proof.Machine
end

