-- ==== Sys2Proof/Machine/Branch.lean ====
section
/-! DEFINITION. Format B: Beq. -/

namespace Sys2Proof.Machine

/-- Beq (43_decoder.md R130; ports 44_interfaces.md R156). -/
def execBeq (rs1 rs2 : RegIdx) (imm : S32) (s : State) : Host.Outcome State Fault Refusal :=
  .next (driveRecord (flatSB .beq rs1 rs2 imm) s)

end Sys2Proof.Machine
end

