-- ==== Sys2Proof/Machine/Jump.lean ====
section
/-! DEFINITION. Format J: Jal. -/

namespace Sys2Proof.Machine

/-- Jal (43_decoder.md R133; ports 44_interfaces.md R156). -/
def execJal (rd : RegIdx) (imm : S32) (s : State) : Host.Outcome State Fault Refusal :=
  .next (driveRecord (flatUJ .jal rd imm) s)

end Sys2Proof.Machine
end

