-- ==== Sys2Proof/Machine/RegisterImmediate.lean ====
section
/-! DEFINITION. Format I: Addi, Jalr and Lw. -/

namespace Sys2Proof.Machine

/-- Addi (43_decoder.md R126; ports 44_interfaces.md R156). -/
def execAddi (rd rs1 : RegIdx) (imm : S32) (s : State) : Host.Outcome State Fault Refusal :=
  .next (driveRecord (flatI .addi rd rs1 imm) s)

/-- Jalr (43_decoder.md R127; ports 44_interfaces.md R156). -/
def execJalr (rd rs1 : RegIdx) (imm : S32) (s : State) : Host.Outcome State Fault Refusal :=
  .next (driveRecord (flatI .jalr rd rs1 imm) s)

/-- Lw (43_decoder.md R128; ports 44_interfaces.md R156). -/
def execLw (rd rs1 : RegIdx) (imm : S32) (s : State) : Host.Outcome State Fault Refusal :=
  .next (driveRecord (flatI .lw rd rs1 imm) s)

end Sys2Proof.Machine
end

