-- ==== Sys2Proof/Machine/RegisterRegister.lean ====
section
/-! DEFINITION. Format R: Add and Sub. The meaning of an instruction in this block is the record the decoder
drives for it; the block does not execute it (00_scope.md R3; log 2, log 16). -/

namespace Sys2Proof.Machine

/-- Add (43_decoder.md R124; ports 44_interfaces.md R156). -/
def execAdd (rd rs1 rs2 : RegIdx) (s : State) : Host.Outcome State Fault Refusal :=
  .next (driveRecord (flatR .add rd rs1 rs2) s)

/-- Sub (43_decoder.md R125; ports 44_interfaces.md R156). -/
def execSub (rd rs1 rs2 : RegIdx) (s : State) : Host.Outcome State Fault Refusal :=
  .next (driveRecord (flatR .sub rd rs1 rs2) s)

end Sys2Proof.Machine
end

