-- ==== Sys2Proof/Machine/Store.lean ====
section
/-! DEFINITION. Format S: Sw. -/

namespace Sys2Proof.Machine

/-- Sw (43_decoder.md R129; ports 44_interfaces.md R156). -/
def execSw (rs1 rs2 : RegIdx) (imm : S32) (s : State) : Host.Outcome State Fault Refusal :=
  .next (driveRecord (flatSB .sw rs1 rs2 imm) s)

end Sys2Proof.Machine
end

