-- ==== Sys2Proof/Machine/UpperImmediate.lean ====
section
/-! DEFINITION. Format U: Lui and Auipc. -/

namespace Sys2Proof.Machine

/-- Lui (43_decoder.md R131; ports 44_interfaces.md R156). -/
def execLui (rd : RegIdx) (imm : S32) (s : State) : Host.Outcome State Fault Refusal :=
  .next (driveRecord (flatUJ .lui rd imm) s)

/-- Auipc (43_decoder.md R132; ports 44_interfaces.md R156). -/
def execAuipc (rd : RegIdx) (imm : S32) (s : State) : Host.Outcome State Fault Refusal :=
  .next (driveRecord (flatUJ .auipc rd imm) s)

end Sys2Proof.Machine
end

