-- ==== Sys2Proof/Machine/Step.lean ====
section
/-! DEFINITION. One step: both units evaluate once on the inputs that stand on the ports (log 2). -/

namespace Sys2Proof.Machine

/-- The encoder unit drives its outputs; the decoder unit decodes `dec_word` and drives the instruction's
record, or an error (44_interfaces.md R150 to R152, 43_decoder.md R140). The units write different ports
and read inputs only, so their order inside a step cannot be observed (44_interfaces.md R164). -/
def step (s : State) : Host.Outcome State Fault Refusal :=
  match decode s.decWord with
  | .ok i => exec i (settleEncoder s)
  | .error e => .next (reportError e (settleEncoder s))

/-- Where a step finds its instruction is the port `dec_word`; the rest of the state stays (log 15). -/
def State.withFetchWord (s : State) (_nbits w : Nat) : State := presentWord (BitVec.ofNat 32 w) s

end Sys2Proof.Machine
end

