-- ==== Sys2Proof/Config.lean ====
section
/-! DEFINITION. What an implementation fixes and the spec does not give: free values without a body, so
that every claim about the model holds for every value of them. Each belongs to the boundary adapter;
the block itself leaves nothing open (93_implementation_defined.md U8, U10; 91_not_in_source.md N12 to N14). -/

namespace Sys2Proof

/-- The boundary's stable version identifier, `ABI_VERSION`, an OPEN parameter
(00_scope.md R5, 44_interfaces.md R163, D16; log 10). -/
opaque Config.abiVersion : Int

/-- Whether the adapter of an encode entry point tests the output location before the block's own
validation; the spec fixes neither order (44_interfaces.md R161, N13; log 11). -/
opaque Config.nullTestedFirstOnEncode : Mnemonic → Bool

/-- The same for the adapter of decode (44_interfaces.md R161, N13; log 11). -/
opaque Config.nullTestedFirstOnDecode : Bool

/-- What the caller's record location holds after decode of this word failed, given what it held before:
the spec says nothing (91_not_in_source.md N12; log 11). -/
opaque Config.recordAfterFailedDecode : Word → FlatRecord → FlatRecord

end Sys2Proof
end

