-- ==== Sys2Proof/Machine/Boundary.lean ====
section
/-! DEFINITION. The seam to the external boundary adapter (44_interfaces.md R159 to R163). The adapter is
outside the block (00_scope.md section 2), so these functions stand beside the step, not in it (log 12).
A caller's output location is an `Option`: `none` is a null location, `some v` a location that holds `v`. -/

namespace Sys2Proof.Machine

/-- The status of a call whose location is null: NullOutputPointer if the block accepted the operands;
where the block reported an error as well, the order of the two tests decides, which the spec leaves open
(44_interfaces.md R161; log 11). -/
def nullStatus (nullFirst : Bool) (blockError : Option CodecError) : Status :=
  match nullFirst, blockError with
  | true, _ => .nullOutputPointer
  | false, none => .nullOutputPointer
  | false, some e => errorStatus e

/-- An encode entry point at the boundary: the status returned and the caller's location afterwards. The
word is written only on success (44_interfaces.md R159, R161). -/
def boundaryEncode (m : Mnemonic) (rd rs1 rs2 : RegArg) (imm : S32) (location : Option Word) :
    Status × Option Word :=
  match location, encodeBy m rd rs1 rs2 imm with
  | some _, .ok w => (.ok, some w)
  | some old, .error e => (errorStatus e, some old)
  | none, .ok _ => (nullStatus (Config.nullTestedFirstOnEncode m) none, none)
  | none, .error e => (nullStatus (Config.nullTestedFirstOnEncode m) (some e), none)

/-- Decode at the boundary. On success the flattened record is written; what the location holds after a
failed decode is a free value (44_interfaces.md R160, R161; 91_not_in_source.md N12; log 11). -/
def boundaryDecode (w : Word) (location : Option FlatRecord) : Status × Option FlatRecord :=
  match location, decode w with
  | some _, .ok i => (.ok, some (flatten i))
  | some old, .error e => (errorStatus e, some (Config.recordAfterFailedDecode w old))
  | none, .ok _ => (nullStatus Config.nullTestedFirstOnDecode none, none)
  | none, .error e => (nullStatus Config.nullTestedFirstOnDecode (some e), none)

/-- The version identifier the boundary exposes (44_interfaces.md R163; log 10); that it is read as
a plain constant is the model's choice (log 18). -/
def boundaryVersion : Int := Config.abiVersion

/-- A consumer's duty: it may rely on the record layout only after the version check
(44_interfaces.md R163, 70_reset_and_hazards.md R192). The spec does not say what the check tests; that it is
equality with one expected integer is the model's choice (DESIGN CHOICE, log 18). -/
def layoutMayBeUsed (expected : Int) : Bool := boundaryVersion == expected

end Sys2Proof.Machine
end

