-- ==== Sys2Proof/Safety.lean ====
section
/-! DEFINITION. The terms claims are stated in: outputs that are the function of the inputs, and a stream
of operations through one instance of the block. -/

namespace Sys2Proof.Machine

/-- The output ports are the function of the input ports, as combinational outputs are at every instant
(44_interfaces.md R151, R152). -/
def Settled (s : State) : Prop := s.encOut = encoderUnit s.encIn ∧ s.decOut = decoderUnit s.decWord

/-- One operation on each unit: the encoder's inputs and the decoder's word. -/
abbrev Request := EncIn × Word

/-- The results of a request. -/
abbrev Response := EncOut × DecOut

/-- Present a request. -/
def present (r : Request) (s : State) : State := presentWord r.2 (presentEncode r.1 s)

/-- Run a list of requests one after another on one instance, each for one step, and list the results;
`none` if a step stops (20_memory.md R24). -/
def serve : List Request → State → Option (List Response)
  | [], _ => some []
  | r :: rs, s =>
    match step (present r s) with
    | .next t => (serve rs t).map ((t.encOut, t.decOut) :: ·)
    | .fault _ => none
    | .refused _ => none

end Sys2Proof.Machine
end

