-- ==== Sys2Proof/Certificates/Slice0/Obligations.lean ====
section
/-! DEFINITION. The statements for the provers, from the numbered rules of spec/. Where a statement names an
opcode or funct constant other than Add's, the constant is that of 30_encoding.md R39, which the spec marks
as its own decision D2 (log 4). -/

open Sys2Proof Sys2Proof.Machine

/-! ### Field extractors and immediate codec -/

/-- 40_extractors_and_immediate_codec.md R60 to R65: each extractor is the unsigned number made of its
bits. -/
def Obligations.ExtractorsReadTheirFixedBits : Prop :=
  ∀ w : Word,
    (Field.opcode w).toNat = w.toNat % 128 ∧
    (Field.rd w).toNat = w.toNat / 2 ^ 7 % 32 ∧
    (Field.funct3 w).toNat = w.toNat / 2 ^ 12 % 8 ∧
    (Field.rs1 w).toNat = w.toNat / 2 ^ 15 % 32 ∧
    (Field.rs2 w).toNat = w.toNat / 2 ^ 20 % 32 ∧
    (Field.funct7 w).toNat = w.toNat / 2 ^ 25

/-- 40_extractors_and_immediate_codec.md R66 (derived there): the six fields, shifted back and or-ed, are
the word. -/
def Obligations.ExtractedFieldsTileTheWord : Prop :=
  ∀ w : Word,
    w = (Field.funct7 w).setWidth 32 <<< 25 ||| (Field.rs2 w).setWidth 32 <<< 20 |||
      (Field.rs1 w).setWidth 32 <<< 15 ||| (Field.funct3 w).setWidth 32 <<< 12 |||
      (Field.rd w).setWidth 32 <<< 7 ||| (Field.opcode w).setWidth 32

/-- 40_extractors_and_immediate_codec.md R67, for every width of its domain:
`value[width-2:0] - 2^(width-1) * value[width-1]`. -/
def Obligations.SignExtendReadsTwosComplement : Prop :=
  ∀ (value : Word) (width : Nat) (domain : 1 ≤ width ∧ width ≤ 32),
    (signExtend value width domain).toInt =
      ((value.toNat % 2 ^ (width - 1) : Nat) : Int) -
        2 ^ (width - 1) * (if value.getLsbD (width - 1) then 1 else 0)

/-- 40_extractors_and_immediate_codec.md R68 (derived there): bits at `width` or above are ignored. -/
def Obligations.SignExtendIgnoresHighBits : Prop :=
  ∀ (value value' : Word) (width : Nat) (domain : 1 ≤ width ∧ width ≤ 32),
    (∀ k, k < width → value.getLsbD k = value'.getLsbD k) →
      signExtend value width domain = signExtend value' width domain

/-- 40_extractors_and_immediate_codec.md R70, for every width of its domain. -/
def Obligations.ImmRangeCheckIsTheSignedInterval : Prop :=
  ∀ (value : S32) (bits : Nat) (domain : 1 ≤ bits ∧ bits ≤ 31),
    (-(2 ^ (bits - 1)) ≤ value.toInt ∧ value.toInt ≤ 2 ^ (bits - 1) - 1 →
      checkImmRange value bits domain = .ok ()) ∧
    (value.toInt < -(2 ^ (bits - 1)) ∨ 2 ^ (bits - 1) - 1 < value.toInt →
      checkImmRange value bits domain = .error .immOutOfRange)

/-- 40_extractors_and_immediate_codec.md R73 (derived there): the range check passes exactly the values the
sign extension of the same width leaves alone. -/
def Obligations.ImmRangeCheckPassesWhatSignExtendKeeps : Prop :=
  ∀ (value : S32) (bits : Nat) (domain : 1 ≤ bits ∧ bits ≤ 31),
    checkImmRange value bits domain = .ok () ↔
      signExtend value bits ⟨domain.1, Nat.le_succ_of_le domain.2⟩ = value

/-- 40_extractors_and_immediate_codec.md R72. -/
def Obligations.RegisterCheckPassesBelow32 : Prop :=
  ∀ r : RegArg,
    (r.toNat < 32 → checkReg r = .ok ()) ∧ (32 ≤ r.toNat → checkReg r = .error .badReg)

/-! ### Packers and assemblers -/

/-- 41_format_packers.md R80 to R85: each packer's word as the sum of its parts at their positions. -/
def Obligations.PackersPlaceEveryPart : Prop :=
  ∀ (funct7 opcode : BitVec 7) (funct3 : BitVec 3) (rd rs1 rs2 : RegIdx) (imm : S32),
    (packR funct7 rs2 rs1 funct3 rd opcode).toNat =
      funct7.toNat * 2 ^ 25 + rs2.toNat * 2 ^ 20 + rs1.toNat * 2 ^ 15 + funct3.toNat * 2 ^ 12 +
        rd.toNat * 2 ^ 7 + opcode.toNat ∧
    (packI imm rs1 funct3 rd opcode).toNat =
      imm.toNat % 2 ^ 12 * 2 ^ 20 + rs1.toNat * 2 ^ 15 + funct3.toNat * 2 ^ 12 + rd.toNat * 2 ^ 7 +
        opcode.toNat ∧
    (packS imm rs2 rs1 funct3 opcode).toNat =
      imm.toNat / 2 ^ 5 % 2 ^ 7 * 2 ^ 25 + rs2.toNat * 2 ^ 20 + rs1.toNat * 2 ^ 15 +
        funct3.toNat * 2 ^ 12 + imm.toNat % 2 ^ 5 * 2 ^ 7 + opcode.toNat ∧
    (packB imm rs2 rs1 funct3 opcode).toNat =
      imm.toNat / 2 ^ 12 % 2 * 2 ^ 31 + imm.toNat / 2 ^ 5 % 2 ^ 6 * 2 ^ 25 + rs2.toNat * 2 ^ 20 +
        rs1.toNat * 2 ^ 15 + funct3.toNat * 2 ^ 12 + imm.toNat / 2 % 2 ^ 4 * 2 ^ 8 +
        imm.toNat / 2 ^ 11 % 2 * 2 ^ 7 + opcode.toNat ∧
    (packU imm rd opcode).toNat = imm.toNat % 2 ^ 20 * 2 ^ 12 + rd.toNat * 2 ^ 7 + opcode.toNat ∧
    (packJ imm rd opcode).toNat =
      imm.toNat / 2 ^ 20 % 2 * 2 ^ 31 + imm.toNat / 2 % 2 ^ 10 * 2 ^ 21 +
        imm.toNat / 2 ^ 11 % 2 * 2 ^ 20 + imm.toNat / 2 ^ 12 % 2 ^ 8 * 2 ^ 12 + rd.toNat * 2 ^ 7 +
        opcode.toNat

/-- 41_format_packers.md R88, R89, R90, R92: each immediate as the signed number of its bits; those of B and
J are even. -/
def Obligations.AssemblersReadSignedImmediates : Prop :=
  ∀ w : Word,
    (immI w).toInt = (w.toNat / 2 ^ 20 % 2 ^ 11 : Nat) - 2 ^ 11 * (w.toNat / 2 ^ 31 : Nat) ∧
    (immS w).toInt =
      (w.toNat / 2 ^ 25 % 2 ^ 6 * 2 ^ 5 + w.toNat / 2 ^ 7 % 2 ^ 5 : Nat) -
        2 ^ 11 * (w.toNat / 2 ^ 31 : Nat) ∧
    (immB w).toInt =
      (w.toNat / 2 ^ 7 % 2 * 2 ^ 11 + w.toNat / 2 ^ 25 % 2 ^ 6 * 2 ^ 5 + w.toNat / 2 ^ 8 % 2 ^ 4 * 2 : Nat) -
        2 ^ 12 * (w.toNat / 2 ^ 31 : Nat) ∧
    (immJ w).toInt =
      (w.toNat / 2 ^ 12 % 2 ^ 8 * 2 ^ 12 + w.toNat / 2 ^ 20 % 2 * 2 ^ 11 +
          w.toNat / 2 ^ 21 % 2 ^ 10 * 2 : Nat) -
        2 ^ 20 * (w.toNat / 2 ^ 31 : Nat) ∧
    (immB w).toInt % 2 = 0 ∧ (immJ w).toInt % 2 = 0

/-- 41_format_packers.md R91, the spec's decision D4 (log 6): the U immediate is the 20-bit field, signed
and not shifted. -/
def Obligations.UpperImmediateIsTheSignedField : Prop :=
  ∀ w : Word,
    (immU w).toInt = (w.toNat / 2 ^ 12 % 2 ^ 19 : Nat) - 2 ^ 19 * (w.toNat / 2 ^ 31 : Nat)

/-- 41_format_packers.md R93, first half (derived there): an accepted immediate is read back. -/
def Obligations.PackedImmediatesReadBack : Prop :=
  ∀ (opcode : BitVec 7) (funct3 : BitVec 3) (rd rs1 rs2 : RegIdx) (imm : S32),
    (immFits12 imm = true → immI (packI imm rs1 funct3 rd opcode) = imm) ∧
    (immFits12 imm = true → immS (packS imm rs2 rs1 funct3 opcode) = imm) ∧
    (immFitsBranch imm = true → immB (packB imm rs2 rs1 funct3 opcode) = imm) ∧
    (immFits20 imm = true → immU (packU imm rd opcode) = imm) ∧
    (immFitsJump imm = true → immJ (packJ imm rd opcode) = imm)

/-- 41_format_packers.md R93, second half (derived there): every word is packed again from what is read from
it, in each of the six formats. -/
def Obligations.UnpackedFieldsPackAgain : Prop :=
  ∀ w : Word,
    packR (Field.funct7 w) (Field.rs2 w) (Field.rs1 w) (Field.funct3 w) (Field.rd w) (Field.opcode w) = w ∧
    packI (immI w) (Field.rs1 w) (Field.funct3 w) (Field.rd w) (Field.opcode w) = w ∧
    packS (immS w) (Field.rs2 w) (Field.rs1 w) (Field.funct3 w) (Field.opcode w) = w ∧
    packB (immB w) (Field.rs2 w) (Field.rs1 w) (Field.funct3 w) (Field.opcode w) = w ∧
    packU (immU w) (Field.rd w) (Field.opcode w) = w ∧
    packJ (immJ w) (Field.rd w) (Field.opcode w) = w

/-! ### The encoder -/

/-- 42_encoder.md R113 and 60_exceptions.md R178: the exact status of every call of the ten entry points;
a bad register wins over a bad immediate. -/
def Obligations.EncodeStatusIsTheResultTable : Prop :=
  ∀ (m : Mnemonic) (rd rs1 rs2 : RegArg) (imm : S32),
    (takesRd m = true ∧ 32 ≤ rd.toNat ∨ takesRs1 m = true ∧ 32 ≤ rs1.toNat ∨
        takesRs2 m = true ∧ 32 ≤ rs2.toNat →
      encodeBy m rd rs1 rs2 imm = .error .badReg) ∧
    ((takesRd m = true → rd.toNat < 32) → (takesRs1 m = true → rs1.toNat < 32) →
        (takesRs2 m = true → rs2.toNat < 32) →
      (immAccepted m imm = false → encodeBy m rd rs1 rs2 imm = .error .immOutOfRange) ∧
      (immAccepted m imm = true → ∃ w, encodeBy m rd rs1 rs2 imm = .ok w))

/-- 42_encoder.md R114, first part: the accepted immediates of each entry point, with registers in range. -/
def Obligations.EncodersAcceptExactlyTheListedBounds : Prop :=
  ∀ (a b : RegArg) (imm : S32), a.toNat < 32 → b.toNat < 32 →
    ((∃ w, encodeAddi a b imm = .ok w) ↔ -2048 ≤ imm.toInt ∧ imm.toInt ≤ 2047) ∧
    ((∃ w, encodeJalr a b imm = .ok w) ↔ -2048 ≤ imm.toInt ∧ imm.toInt ≤ 2047) ∧
    ((∃ w, encodeLw a b imm = .ok w) ↔ -2048 ≤ imm.toInt ∧ imm.toInt ≤ 2047) ∧
    ((∃ w, encodeSw a b imm = .ok w) ↔ -2048 ≤ imm.toInt ∧ imm.toInt ≤ 2047) ∧
    ((∃ w, encodeBeq a b imm = .ok w) ↔
      -4096 ≤ imm.toInt ∧ imm.toInt ≤ 4094 ∧ imm.toInt % 2 = 0) ∧
    ((∃ w, encodeLui a imm = .ok w) ↔ -524288 ≤ imm.toInt ∧ imm.toInt ≤ 524287) ∧
    ((∃ w, encodeAuipc a imm = .ok w) ↔ -524288 ≤ imm.toInt ∧ imm.toInt ≤ 524287) ∧
    ((∃ w, encodeJal a imm = .ok w) ↔
      -1048576 ≤ imm.toInt ∧ imm.toInt ≤ 1048574 ∧ imm.toInt % 2 = 0)

/-- 42_encoder.md R102. Add's constants are the source's own. -/
def Obligations.EncodeAddGivesItsWord : Prop :=
  ∀ rd rs1 rs2 : RegArg,
    (rd.toNat < 32 ∧ rs1.toNat < 32 ∧ rs2.toNat < 32 →
      encodeAdd rd rs1 rs2 =
        .ok (BitVec.ofNat 32 (rs2.toNat * 2 ^ 20 + rs1.toNat * 2 ^ 15 + rd.toNat * 2 ^ 7 + 0b0110011))) ∧
    (32 ≤ rd.toNat ∨ 32 ≤ rs1.toNat ∨ 32 ≤ rs2.toNat → encodeAdd rd rs1 rs2 = .error .badReg)

/-- 42_encoder.md R103: the word, the error, and that the word differs from Add's in bit 30 only. The operand
order of `encode_sub` is the spec's decision D20 (30_encoding.md R45; log 13). -/
def Obligations.EncodeSubGivesItsWord : Prop :=
  ∀ rd rs1 rs2 : RegArg,
    (rd.toNat < 32 ∧ rs1.toNat < 32 ∧ rs2.toNat < 32 →
      encodeSub rd rs1 rs2 =
        .ok (BitVec.ofNat 32
          (0x20 * 2 ^ 25 + rs2.toNat * 2 ^ 20 + rs1.toNat * 2 ^ 15 + rd.toNat * 2 ^ 7 + 0x33))) ∧
    (32 ≤ rd.toNat ∨ 32 ≤ rs1.toNat ∨ 32 ≤ rs2.toNat → encodeSub rd rs1 rs2 = .error .badReg) ∧
    (∀ w, encodeAdd rd rs1 rs2 = .ok w → encodeSub rd rs1 rs2 = .ok (w ^^^ 0x40000000#32))

/-- 42_encoder.md R104, R105, R106: the words of format I. The immediate of Jalr and Lw may be odd. The operand
order of `encode_jalr` and `encode_lw` is the spec's decision D20 (30_encoding.md R45; log 13). -/
def Obligations.EncodeAddiJalrLwGiveTheirWords : Prop :=
  ∀ (rd rs1 : RegArg) (imm : S32), rd.toNat < 32 → rs1.toNat < 32 →
    -2048 ≤ imm.toInt → imm.toInt ≤ 2047 →
    encodeAddi rd rs1 imm =
      .ok (BitVec.ofNat 32
        (imm.toNat % 2 ^ 12 * 2 ^ 20 + rs1.toNat * 2 ^ 15 + rd.toNat * 2 ^ 7 + 0x13)) ∧
    encodeJalr rd rs1 imm =
      .ok (BitVec.ofNat 32
        (imm.toNat % 2 ^ 12 * 2 ^ 20 + rs1.toNat * 2 ^ 15 + rd.toNat * 2 ^ 7 + 0x67)) ∧
    encodeLw rd rs1 imm =
      .ok (BitVec.ofNat 32
        (imm.toNat % 2 ^ 12 * 2 ^ 20 + rs1.toNat * 2 ^ 15 + 2 * 2 ^ 12 + rd.toNat * 2 ^ 7 + 0x03))

/-- 42_encoder.md R107 and R108: the words of formats S and B. That the first operand of `encode_sw` is the base
register, placed in bits 19:15, is the spec's decision D20 (30_encoding.md R45; DESIGN CHOICE, log 13, unsafe
for `encode_sw`). -/
def Obligations.EncodeSwBeqGiveTheirWords : Prop :=
  ∀ (rs1 rs2 : RegArg) (imm : S32), rs1.toNat < 32 → rs2.toNat < 32 →
    (-2048 ≤ imm.toInt → imm.toInt ≤ 2047 →
      encodeSw rs1 rs2 imm =
        .ok (BitVec.ofNat 32
          (imm.toNat / 2 ^ 5 % 2 ^ 7 * 2 ^ 25 + rs2.toNat * 2 ^ 20 + rs1.toNat * 2 ^ 15 + 2 * 2 ^ 12 +
            imm.toNat % 2 ^ 5 * 2 ^ 7 + 0x23))) ∧
    (-4096 ≤ imm.toInt → imm.toInt ≤ 4094 → imm.toInt % 2 = 0 →
      encodeBeq rs1 rs2 imm =
        .ok (BitVec.ofNat 32
          (imm.toNat / 2 ^ 12 % 2 * 2 ^ 31 + imm.toNat / 2 ^ 5 % 2 ^ 6 * 2 ^ 25 + rs2.toNat * 2 ^ 20 +
            rs1.toNat * 2 ^ 15 + imm.toNat / 2 % 2 ^ 4 * 2 ^ 8 + imm.toNat / 2 ^ 11 % 2 * 2 ^ 7 + 0x63)))

/-- 42_encoder.md R109, R110, R111: the words of formats U and J. The operand order of `encode_lui` and
`encode_auipc` is the spec's decision D20 (30_encoding.md R45; log 13). -/
def Obligations.EncodeLuiAuipcJalGiveTheirWords : Prop :=
  ∀ (rd : RegArg) (imm : S32), rd.toNat < 32 →
    (-524288 ≤ imm.toInt → imm.toInt ≤ 524287 →
      encodeLui rd imm =
        .ok (BitVec.ofNat 32 (imm.toNat % 2 ^ 20 * 2 ^ 12 + rd.toNat * 2 ^ 7 + 0x37)) ∧
      encodeAuipc rd imm =
        .ok (BitVec.ofNat 32 (imm.toNat % 2 ^ 20 * 2 ^ 12 + rd.toNat * 2 ^ 7 + 0x17))) ∧
    (-1048576 ≤ imm.toInt → imm.toInt ≤ 1048574 → imm.toInt % 2 = 0 →
      encodeJal rd imm =
        .ok (BitVec.ofNat 32
          (imm.toNat / 2 ^ 20 % 2 * 2 ^ 31 + imm.toNat / 2 % 2 ^ 10 * 2 ^ 21 +
            imm.toNat / 2 ^ 11 % 2 * 2 ^ 20 + imm.toNat / 2 ^ 12 % 2 ^ 8 * 2 ^ 12 + rd.toNat * 2 ^ 7 +
            0x6F)))

/-- 42_encoder.md R115 (derived there): equal words come from one mnemonic with equal operands. -/
def Obligations.EncodeIsInjective : Prop :=
  ∀ (m m' : Mnemonic) (rd rs1 rs2 rd' rs1' rs2' : RegArg) (imm imm' : S32) (w : Word),
    encodeBy m rd rs1 rs2 imm = .ok w → encodeBy m' rd' rs1' rs2' imm' = .ok w →
      m = m' ∧ (takesRd m = true → rd = rd') ∧ (takesRs1 m = true → rs1 = rs1') ∧
        (takesRs2 m = true → rs2 = rs2') ∧ (takesImm m = true → imm = imm')

/-! ### The decoder -/

/-- 30_encoding.md R42, 43_decoder.md R135, R139: the three classes of words, by the masks and matches of
R40 (constants D2, the Jalr row D3). -/
def Obligations.DecodeSortsEveryWordIntoThreeClasses : Prop :=
  ∀ w : Word,
    ((∃ i, decode w = .ok i) ↔ ∃ m, matchesRow m w = true) ∧
    (decode w = .error .badOpcode ↔ Field.opcode w ∉ recognisedOpcodes) ∧
    (decode w = .error .badFunct ↔
      Field.opcode w ∈ recognisedOpcodes ∧ ∀ m, matchesRow m w = false)

/-- 43_decoder.md R134, 30_encoding.md R40: the variant is that of the one row the word matches. -/
def Obligations.DecodedVariantIsTheOnlyMatchingRow : Prop :=
  ∀ (w : Word) (i : Instr), decode w = .ok i →
    matchesRow i.mnemonic w = true ∧ ∀ m, matchesRow m w = true → m = i.mnemonic

/-- 43_decoder.md R124. Add's constants are the source's own. -/
def Obligations.AddWordsDecodeToAdd : Prop :=
  ∀ w : Word, w &&& 0xFE00707F#32 = 0x00000033#32 →
    decode w = .ok (.add (w.extractLsb 11 7) (w.extractLsb 19 15) (w.extractLsb 24 20))

/-- 43_decoder.md R125 to R128: the words of Sub and of format I. -/
def Obligations.SubAddiJalrLwWordsDecode : Prop :=
  ∀ w : Word,
    (w &&& 0xFE00707F#32 = 0x40000033#32 →
      decode w = .ok (.sub (w.extractLsb 11 7) (w.extractLsb 19 15) (w.extractLsb 24 20))) ∧
    (w &&& 0x0000707F#32 = 0x00000013#32 →
      decode w =
        .ok (.addi (w.extractLsb 11 7) (w.extractLsb 19 15) ((w.extractLsb 31 20).signExtend 32))) ∧
    (w &&& 0x0000707F#32 = 0x00000067#32 →
      decode w =
        .ok (.jalr (w.extractLsb 11 7) (w.extractLsb 19 15) ((w.extractLsb 31 20).signExtend 32))) ∧
    (w &&& 0x0000707F#32 = 0x00002003#32 →
      decode w =
        .ok (.lw (w.extractLsb 11 7) (w.extractLsb 19 15) ((w.extractLsb 31 20).signExtend 32)))

/-- 43_decoder.md R129 to R133: the words of formats S, B, U and J. -/
def Obligations.SwBeqLuiAuipcJalWordsDecode : Prop :=
  ∀ w : Word,
    (w &&& 0x0000707F#32 = 0x00002023#32 →
      decode w =
        .ok (.sw (w.extractLsb 19 15) (w.extractLsb 24 20)
          ((w.extractLsb 31 25 ++ w.extractLsb 11 7).signExtend 32))) ∧
    (w &&& 0x0000707F#32 = 0x00000063#32 →
      decode w =
        .ok (.beq (w.extractLsb 19 15) (w.extractLsb 24 20)
          ((w.extractLsb 31 31 ++ w.extractLsb 7 7 ++ w.extractLsb 30 25 ++ w.extractLsb 11 8 ++
            0#1).signExtend 32))) ∧
    (w &&& 0x0000007F#32 = 0x00000037#32 →
      decode w = .ok (.lui (w.extractLsb 11 7) ((w.extractLsb 31 12).signExtend 32))) ∧
    (w &&& 0x0000007F#32 = 0x00000017#32 →
      decode w = .ok (.auipc (w.extractLsb 11 7) ((w.extractLsb 31 12).signExtend 32))) ∧
    (w &&& 0x0000007F#32 = 0x0000006F#32 →
      decode w =
        .ok (.jal (w.extractLsb 11 7)
          ((w.extractLsb 31 31 ++ w.extractLsb 19 12 ++ w.extractLsb 20 20 ++ w.extractLsb 30 21 ++
            0#1).signExtend 32)))

/-- 43_decoder.md R136 (derived there). -/
def Obligations.DecodedRecordsAreWellFormed : Prop :=
  ∀ (w : Word) (i : Instr), decode w = .ok i → i.wellFormed = true

/-- 43_decoder.md R138, the source's round trip: every well-formed record comes back. -/
def Obligations.DecodeAfterEncodeGivesTheRecord : Prop :=
  ∀ i : Instr, i.wellFormed = true → ∃ w, encode i = .ok w ∧ decode w = .ok i

/-- 43_decoder.md R137 (derived there): every word that decodes comes back. -/
def Obligations.EncodeAfterDecodeGivesTheWord : Prop :=
  ∀ (w : Word) (i : Instr), decode w = .ok i → encode i = .ok w

/-- 30_encoding.md R42 (derived there): how many of the 2^32 words each class holds. -/
def Obligations.WordClassesHaveTheListedSizes : Prop :=
  { w : Word | ∃ i, decode w = .ok i }.ncard = 121700352 ∧
  { w : Word | decode w = .error .badFunct }.ncard = 180289536 ∧
  { w : Word | decode w = .error .badOpcode }.ncard = 3992977408

/-- The worked examples of 43_decoder.md R124 to R133, one word for each variant. -/
def Obligations.ExampleWordsDecode : Prop :=
  decode 0x003100B3#32 = .ok (.add 1#5 2#5 3#5) ∧
  decode 0x403100B3#32 = .ok (.sub 1#5 2#5 3#5) ∧
  decode 0xFFF10093#32 = .ok (.addi 1#5 2#5 (BitVec.ofInt 32 (-1))) ∧
  decode 0x00008067#32 = .ok (.jalr 0#5 1#5 0#32) ∧
  decode 0x06412503#32 = .ok (.lw 10#5 2#5 100#32) ∧
  decode 0x00E12423#32 = .ok (.sw 2#5 14#5 8#32) ∧
  decode 0x00208463#32 = .ok (.beq 1#5 2#5 8#32) ∧
  decode 0x12345FB7#32 = .ok (.lui 31#5 74565#32) ∧
  decode 0x00001297#32 = .ok (.auipc 5#5 1#32) ∧
  decode 0xFFDFF0EF#32 = .ok (.jal 1#5 (BitVec.ofInt 32 (-4)))

/-! ### The meanings: what the decoder drives for each instruction -/

/-- Add and Sub (43_decoder.md R124, R125; 44_interfaces.md R152, R156; codes R153, R185, the spec's D9, D10,
log 9): in every state they complete with this next state, and nothing else changes. -/
def Obligations.AddSubDriveTheirRecord : Prop :=
  ∀ (rd rs1 rs2 : RegIdx) (s : State),
    exec (.add rd rs1 rs2) s =
      .next { s with decOut := { status := 0, record := { variant := 0, rd, rs1, rs2, imm := 0 } } } ∧
    exec (.sub rd rs1 rs2) s =
      .next { s with decOut := { status := 0, record := { variant := 1, rd, rs1, rs2, imm := 0 } } }

/-- Addi, Jalr and Lw (43_decoder.md R126 to R128; 44_interfaces.md R152, R156; codes D9, D10, log 9). -/
def Obligations.AddiJalrLwDriveTheirRecord : Prop :=
  ∀ (rd rs1 : RegIdx) (imm : S32) (s : State),
    exec (.addi rd rs1 imm) s =
      .next { s with decOut := { status := 0, record := { variant := 2, rd, rs1, rs2 := 0, imm } } } ∧
    exec (.jalr rd rs1 imm) s =
      .next { s with decOut := { status := 0, record := { variant := 3, rd, rs1, rs2 := 0, imm } } } ∧
    exec (.lw rd rs1 imm) s =
      .next { s with decOut := { status := 0, record := { variant := 4, rd, rs1, rs2 := 0, imm } } }

/-- Sw and Beq (43_decoder.md R129, R130; 44_interfaces.md R152, R156; codes D9, D10, log 9). -/
def Obligations.SwBeqDriveTheirRecord : Prop :=
  ∀ (rs1 rs2 : RegIdx) (imm : S32) (s : State),
    exec (.sw rs1 rs2 imm) s =
      .next { s with decOut := { status := 0, record := { variant := 5, rd := 0, rs1, rs2, imm } } } ∧
    exec (.beq rs1 rs2 imm) s =
      .next { s with decOut := { status := 0, record := { variant := 6, rd := 0, rs1, rs2, imm } } }

/-- Lui, Auipc and Jal (43_decoder.md R131 to R133; 44_interfaces.md R152, R156; codes D9, D10, log 9). -/
def Obligations.LuiAuipcJalDriveTheirRecord : Prop :=
  ∀ (rd : RegIdx) (imm : S32) (s : State),
    exec (.lui rd imm) s =
      .next { s with decOut := { status := 0, record := { variant := 7, rd, rs1 := 0, rs2 := 0, imm } } } ∧
    exec (.auipc rd imm) s =
      .next { s with decOut := { status := 0, record := { variant := 8, rd, rs1 := 0, rs2 := 0, imm } } } ∧
    exec (.jal rd imm) s =
      .next { s with decOut := { status := 0, record := { variant := 9, rd, rs1 := 0, rs2 := 0, imm } } }

/-- The frame of all ten instructions (44_interfaces.md R152, R164): both units' inputs and the encoder's
outputs stay; the record driven depends on the instruction alone. -/
def Obligations.InstructionsChangeOnlyTheDecoderOutputs : Prop :=
  ∀ (i : Instr) (s s' t t' : State), exec i s = .next t → exec i s' = .next t' →
    t.encIn = s.encIn ∧ t.encOut = s.encOut ∧ t.decWord = s.decWord ∧ t.decOut = t'.decOut

/-- 44_interfaces.md R156: which fields each variant drives, from the word's own bits; the others are zero,
even where the word's bits are not. -/
def Obligations.FieldsAVariantLacksAreZero : Prop :=
  ∀ (s : State) (i : Instr), decode s.decWord = .ok i →
    ∃ t, step s = .next t ∧
      match i.mnemonic with
      | .add | .sub =>
        t.decOut.record.rd = Field.rd s.decWord ∧ t.decOut.record.rs1 = Field.rs1 s.decWord ∧
          t.decOut.record.rs2 = Field.rs2 s.decWord ∧ t.decOut.record.imm = 0
      | .addi | .jalr | .lw =>
        t.decOut.record.rd = Field.rd s.decWord ∧ t.decOut.record.rs1 = Field.rs1 s.decWord ∧
          t.decOut.record.rs2 = 0 ∧ t.decOut.record.imm = immI s.decWord
      | .sw =>
        t.decOut.record.rd = 0 ∧ t.decOut.record.rs1 = Field.rs1 s.decWord ∧
          t.decOut.record.rs2 = Field.rs2 s.decWord ∧ t.decOut.record.imm = immS s.decWord
      | .beq =>
        t.decOut.record.rd = 0 ∧ t.decOut.record.rs1 = Field.rs1 s.decWord ∧
          t.decOut.record.rs2 = Field.rs2 s.decWord ∧ t.decOut.record.imm = immB s.decWord
      | .lui | .auipc =>
        t.decOut.record.rd = Field.rd s.decWord ∧ t.decOut.record.rs1 = 0 ∧
          t.decOut.record.rs2 = 0 ∧ t.decOut.record.imm = immU s.decWord
      | .jal =>
        t.decOut.record.rd = Field.rd s.decWord ∧ t.decOut.record.rs1 = 0 ∧
          t.decOut.record.rs2 = 0 ∧ t.decOut.record.imm = immJ s.decWord

/-- 44_interfaces.md R153, R156: with the variant code (numbers the spec's D9, log 9), the flattened record
loses nothing. -/
def Obligations.FlattenedRecordDeterminesTheInstruction : Prop :=
  ∀ i j : Instr, flatten i = flatten j → i = j

/-! ### The step -/

/-- A step runs the decoded instruction after the encoder unit has driven its outputs, and reports a decode
error otherwise (43_decoder.md R140, 44_interfaces.md R150 to R152). That a step is one evaluation of both
units is the model's choice (log 2). The error clause rests on the spec's decisions: variant 15 and zeros are
D11 (44_interfaces.md R155), the numbers of the codes D9 and D10 (R153, 60_exceptions.md R185; log 9). -/
def Obligations.StepRunsTheDecodedInstruction : Prop :=
  ∀ s : State,
    (∀ i, decode s.decWord = .ok i → step s = exec i { s with encOut := encoderUnit s.encIn }) ∧
    (∀ e, decode s.decWord = .error e →
      step s =
        .next { s with
          encOut := encoderUnit s.encIn
          decOut :=
            { status := statusCode (errorStatus e)
              record := { variant := 15, rd := 0, rs1 := 0, rs2 := 0, imm := 0 } } })

/-- 44_interfaces.md R151, R152, 60_exceptions.md R184: from every state a step answers a next state whose
outputs are the function of the inputs, and the inputs are the environment's, unchanged. -/
def Obligations.EveryStepSettlesTheOutputs : Prop :=
  ∀ s : State, ∃ t, step s = .next t ∧ Settled t ∧ t.encIn = s.encIn ∧ t.decWord = s.decWord

/-- 10_state.md R19: the outputs of the reset state are the function of its inputs. That those inputs are
zero is the model's choice (log 3). -/
def Obligations.ResetStateIsSettled : Prop := Settled State.reset

/-- 20_memory.md R23, 60_exceptions.md R182: with the inputs held, repeating an operation changes nothing,
however often. -/
def Obligations.RepeatedOperationsChangeNothing : Prop :=
  ∀ (k : Nat) (s : State), Settled s → Host.Core.run Sys2Proof.core k s = .next s

/-- 20_memory.md R24 on one instance, 60_exceptions.md R180, R182: in a stream of operations, of any length
and from any state, each result is what it would be alone. -/
def Obligations.StreamResultsAreThoseOfEachOperationAlone : Prop :=
  ∀ (requests : List Request) (s : State),
    serve requests s = some (requests.map fun r => (encoderUnit r.1, decoderUnit r.2))

/-- 44_interfaces.md R164, 10_state.md R10: each unit reads its own inputs only; the other unit's inputs
and all earlier outputs make no difference. -/
def Obligations.EachUnitReadsOnlyItsOwnInputs : Prop :=
  ∀ s s' t t' : State, step s = .next t → step s' = .next t' →
    (s.encIn = s'.encIn → t.encOut = t'.encOut) ∧ (s.decWord = s'.decWord → t.decOut = t'.decOut)

/-- 44_interfaces.md R151 and R155 (port codes and failure outputs are the spec's D9 to D11, log 9): with a
mnemonic's code on `enc_sel`, the outputs render that entry point. -/
def Obligations.EncoderPortsRenderTheSelectedEntryPoint : Prop :=
  ∀ (s : State) (m : Mnemonic), s.encIn.sel = variantCode m →
    ∃ t, step s = .next t ∧
      (∀ w, encodeBy m s.encIn.rd s.encIn.rs1 s.encIn.rs2 s.encIn.imm = .ok w →
        t.encOut = { status := 0, word := w }) ∧
      (encodeBy m s.encIn.rd s.encIn.rs1 s.encIn.rs2 s.encIn.imm = .error .badReg →
        t.encOut = { status := 1, word := 0 }) ∧
      (encodeBy m s.encIn.rd s.encIn.rs1 s.encIn.rs2 s.encIn.imm = .error .immOutOfRange →
        t.encOut = { status := 2, word := 0 })

/-- 44_interfaces.md R158, the spec's D12, with the codes of D9 and D10 (60_exceptions.md R185; log 9): a
reserved `enc_sel` gives Unknown and word 0. -/
def Obligations.ReservedSelectorGivesUnknown : Prop :=
  ∀ s : State, 10 ≤ s.encIn.sel.toNat →
    ∃ t, step s = .next t ∧ t.encOut = { status := 6, word := 0 }

/-- 44_interfaces.md R157, the spec's D13, with the codes of D9 (R153; log 9): operands the selected mnemonic
does not take make no difference. -/
def Obligations.UntakenOperandsAreIgnored : Prop :=
  ∀ (p q : EncIn) (m : Mnemonic), p.sel = variantCode m → q.sel = variantCode m →
    (takesRd m = true → p.rd = q.rd) → (takesRs1 m = true → p.rs1 = q.rs1) →
    (takesRs2 m = true → p.rs2 = q.rs2) → (takesImm m = true → p.imm = q.imm) →
      encoderUnit p = encoderUnit q

/-- 44_interfaces.md R155, R158, 60_exceptions.md R170, R175, R176 (values the spec's D9 to D12, log 9): after
every step the codes on the ports are those the block can produce, a failed operation carries no data, and
word 0 is never an encoded instruction. -/
def Obligations.PortCodesAreThoseTheBlockProduces : Prop :=
  ∀ s t : State, step s = .next t →
    (t.encOut.status = 0 ∨ t.encOut.status = 1 ∨ t.encOut.status = 2 ∨ t.encOut.status = 6) ∧
    (t.encOut.status = 6 ↔ 10 ≤ s.encIn.sel.toNat) ∧
    (t.encOut.status = 0 ↔ t.encOut.word ≠ 0) ∧
    (t.decOut.status = 0 ∨ t.decOut.status = 3 ∨ t.decOut.status = 4) ∧
    (t.decOut.status = 0 → t.decOut.record.variant.toNat ≤ 9) ∧
    (t.decOut.status ≠ 0 →
      t.decOut.record = { variant := 15, rd := 0, rs1 := 0, rs2 := 0, imm := 0 })

/-- 43_decoder.md R138 on the ports (44_interfaces.md R151, R152), 70_reset_and_hazards.md R193: an encoded
word fed to the decoder drives the selector and the operands it was encoded from, and zero where the mnemonic
takes none (R156). Status 0 and one code for selector and variant are the spec's decisions D10 and D9
(60_exceptions.md R185, 44_interfaces.md R153; log 9). -/
def Obligations.EncodedWordFedBackDrivesItsOperands : Prop :=
  ∀ (s t : State) (m : Mnemonic), s.encIn.sel = variantCode m → step s = .next t → t.encOut.status = 0 →
    ∃ u, step (presentWord t.encOut.word t) = .next u ∧ u.decOut.status = 0 ∧
      u.decOut.record.variant = s.encIn.sel ∧
      u.decOut.record.rd.setWidth 8 = (if takesRd m then s.encIn.rd else 0) ∧
      u.decOut.record.rs1.setWidth 8 = (if takesRs1 m then s.encIn.rs1 else 0) ∧
      u.decOut.record.rs2.setWidth 8 = (if takesRs2 m then s.encIn.rs2 else 0) ∧
      u.decOut.record.imm = (if takesImm m then s.encIn.imm else 0)

/-- 43_decoder.md R137 on the ports (derived there; 44_interfaces.md R151, R152): a decoded record fed to the
encoder gives the word back. Status 0 and the variant code that is fed to `enc_sel` are the spec's decisions D10
and D9 (60_exceptions.md R185, 44_interfaces.md R153; log 9). -/
def Obligations.DecodedRecordFedBackGivesItsWord : Prop :=
  ∀ s t : State, step s = .next t → t.decOut.status = 0 →
    ∃ u,
      step (presentEncode
        { sel := t.decOut.record.variant
          rd := t.decOut.record.rd.setWidth 8
          rs1 := t.decOut.record.rs1.setWidth 8
          rs2 := t.decOut.record.rs2.setWidth 8
          imm := t.decOut.record.imm } t) = .next u ∧
      u.encOut = { status := 0, word := s.decWord }

/-! ### The seam to the boundary adapter -/

/-- 44_interfaces.md R159: with a location given, the word is written on success and the location is
untouched on failure. -/
def Obligations.BoundaryWritesTheWordOnlyOnSuccess : Prop :=
  ∀ (m : Mnemonic) (rd rs1 rs2 : RegArg) (imm : S32) (old : Word),
    (∀ w, encodeBy m rd rs1 rs2 imm = .ok w →
      boundaryEncode m rd rs1 rs2 imm (some old) = (.ok, some w)) ∧
    (∀ e, encodeBy m rd rs1 rs2 imm = .error e →
      boundaryEncode m rd rs1 rs2 imm (some old) = (errorStatus e, some old))

/-- 44_interfaces.md R160: with a location given, a decoded record is written flattened (variant codes the
spec's D9, log 9); on an error its status is returned. What the location then holds is a free value (log 11). -/
def Obligations.BoundaryWritesTheFlattenedRecord : Prop :=
  ∀ (w : Word) (old : FlatRecord),
    (∀ i, decode w = .ok i → boundaryDecode w (some old) = (.ok, some (flatten i))) ∧
    (∀ e, decode w = .error e → (boundaryDecode w (some old)).1 = errorStatus e)

/-- 44_interfaces.md R161: the null location is the one condition the boundary adds to the block's outcomes;
with a location given, the status is the block's own. With a null location nothing is written, and a call
the block accepted reports the null location. Where the block reports an error as well, the order of the
two tests is a free value (log 11), and the status is one of the two. -/
def Obligations.NullLocationIsTheOnlyAddedCondition : Prop :=
  (∀ (m : Mnemonic) (rd rs1 rs2 : RegArg) (imm : S32) (location : Option Word),
    ((boundaryEncode m rd rs1 rs2 imm location).1 = .nullOutputPointer → location = none) ∧
    (location ≠ none →
      (∀ w, encodeBy m rd rs1 rs2 imm = .ok w → (boundaryEncode m rd rs1 rs2 imm location).1 = .ok) ∧
      (∀ e, encodeBy m rd rs1 rs2 imm = .error e →
        (boundaryEncode m rd rs1 rs2 imm location).1 = errorStatus e)) ∧
    (location = none →
      (boundaryEncode m rd rs1 rs2 imm location).2 = none ∧
      (∀ w, encodeBy m rd rs1 rs2 imm = .ok w →
        (boundaryEncode m rd rs1 rs2 imm location).1 = .nullOutputPointer) ∧
      (∀ e, encodeBy m rd rs1 rs2 imm = .error e →
        (boundaryEncode m rd rs1 rs2 imm location).1 = .nullOutputPointer ∨
          (boundaryEncode m rd rs1 rs2 imm location).1 = errorStatus e))) ∧
  (∀ (w : Word) (location : Option FlatRecord),
    ((boundaryDecode w location).1 = .nullOutputPointer → location = none) ∧
    (location ≠ none →
      (∀ i, decode w = .ok i → (boundaryDecode w location).1 = .ok) ∧
      (∀ e, decode w = .error e → (boundaryDecode w location).1 = errorStatus e)) ∧
    (location = none →
      (boundaryDecode w location).2 = none ∧
      (∀ i, decode w = .ok i → (boundaryDecode w location).1 = .nullOutputPointer) ∧
      (∀ e, decode w = .error e →
        (boundaryDecode w location).1 = .nullOutputPointer ∨
          (boundaryDecode w location).1 = errorStatus e)))
end

