-- ==== Sys2Proof/Laws/Codec.lean ====
section
/-! SUPPORT. One lemma per function of the codec: what `signExtend` and the checks compute, what the
extractors and assemblers read from a packed word, what an entry point answers. -/

namespace Sys2Proof

/-! ### Immediate codec -/

/-- The two shifts are the sign extension of the low `n` bits. -/
theorem signExtend_eq (v : Word) (n : Nat) (h : 1 ≤ n ∧ n ≤ 32) :
    signExtend v n h = (v.setWidth n).signExtend 32 := by
  refine BitVec.eq_of_getLsbD_eq fun i hi => ?_
  simp only [signExtend, BitVec.getLsbD_sshiftRight, BitVec.getLsbD_signExtend,
    BitVec.msb_eq_getLsbD_last, BitVec.getLsbD_shiftLeft, BitVec.getLsbD_setWidth, hi]
  by_cases hn : i < n
  · simp [show 32 - n + i < 32 by omega, hn, show ¬ 32 ≤ i by omega]
  · simp [show ¬ 32 - n + i < 32 by omega, hn, show n - 1 < n by omega,
      show 31 - (32 - n) = n - 1 by omega, show ¬ 31 < 32 - n by omega, show ¬ 32 ≤ i by omega]

theorem checkReg_eq (r : RegArg) :
    checkReg r = if r.toNat < 32 then .ok () else .error .badReg := by
  unfold checkReg
  split <;> split <;> first | rfl | omega

theorem checkEven_eq (imm : S32) :
    checkEven imm = if imm.getLsbD 0 = false then .ok () else .error .immOutOfRange := by
  unfold checkEven
  cases imm.getLsbD 0 <;> rfl

theorem checkImmRange_eq (v : S32) (n : Nat) (h : 1 ≤ n ∧ n ≤ 31) :
    checkImmRange v n h =
      if -(2 ^ (n - 1)) ≤ v.toInt ∧ v.toInt ≤ 2 ^ (n - 1) - 1 then .ok () else .error .immOutOfRange := by
  unfold checkImmRange
  split <;> split <;> first | rfl | omega

/-! ### Records as operands of the entry points -/

@[simp] theorem checkReg_regArg (r : RegIdx) : checkReg (regArg r) = .ok () := by
  have h : (regArg r).toNat < 32 := by
    have := r.isLt
    simp only [regArg, BitVec.toNat_setWidth]
    omega
  simp [checkReg_eq, h]

@[simp] theorem regIndex_regArg (r : RegIdx) : regIndex (regArg r) = r := by
  refine BitVec.eq_of_getLsbD_eq fun i hi => ?_
  simp only [regIndex, regArg, BitVec.getLsbD_extractLsb, BitVec.getLsbD_setWidth]
  interval_cases i <;> simp

theorem regArg_regIndex {r : RegArg} (h : r.toNat < 32) : regArg (regIndex r) = r := by
  apply BitVec.eq_of_toNat_eq
  simp only [regIndex, regArg, BitVec.toNat_setWidth, BitVec.extractLsb_toNat, Nat.shiftRight_zero]
  omega

/-! ### What the extractors read from a packed word -/

section Extractors
variable (f7 op : BitVec 7) (f3 : BitVec 3) (rd rs1 rs2 : RegIdx) (imm : S32)

@[simp] theorem opcode_packR : Field.opcode (packR f7 rs2 rs1 f3 rd op) = op := by
  refine BitVec.eq_of_getLsbD_eq fun i hi => ?_
  simp only [Field.opcode, packR, BitVec.getLsbD_append, BitVec.getLsbD_extractLsb]
  interval_cases i <;> simp

@[simp] theorem rd_packR : Field.rd (packR f7 rs2 rs1 f3 rd op) = rd := by
  refine BitVec.eq_of_getLsbD_eq fun i hi => ?_
  simp only [Field.rd, packR, BitVec.getLsbD_append, BitVec.getLsbD_extractLsb]
  interval_cases i <;> simp

@[simp] theorem funct3_packR : Field.funct3 (packR f7 rs2 rs1 f3 rd op) = f3 := by
  refine BitVec.eq_of_getLsbD_eq fun i hi => ?_
  simp only [Field.funct3, packR, BitVec.getLsbD_append, BitVec.getLsbD_extractLsb]
  interval_cases i <;> simp

@[simp] theorem rs1_packR : Field.rs1 (packR f7 rs2 rs1 f3 rd op) = rs1 := by
  refine BitVec.eq_of_getLsbD_eq fun i hi => ?_
  simp only [Field.rs1, packR, BitVec.getLsbD_append, BitVec.getLsbD_extractLsb]
  interval_cases i <;> simp

@[simp] theorem rs2_packR : Field.rs2 (packR f7 rs2 rs1 f3 rd op) = rs2 := by
  refine BitVec.eq_of_getLsbD_eq fun i hi => ?_
  simp only [Field.rs2, packR, BitVec.getLsbD_append, BitVec.getLsbD_extractLsb]
  interval_cases i <;> simp

@[simp] theorem funct7_packR : Field.funct7 (packR f7 rs2 rs1 f3 rd op) = f7 := by
  refine BitVec.eq_of_getLsbD_eq fun i hi => ?_
  simp only [Field.funct7, packR, BitVec.getLsbD_append, BitVec.getLsbD_extractLsb]
  interval_cases i <;> simp

@[simp] theorem opcode_packI : Field.opcode (packI imm rs1 f3 rd op) = op := by
  refine BitVec.eq_of_getLsbD_eq fun i hi => ?_
  simp only [Field.opcode, packI, BitVec.getLsbD_append, BitVec.getLsbD_extractLsb]
  interval_cases i <;> simp

@[simp] theorem rd_packI : Field.rd (packI imm rs1 f3 rd op) = rd := by
  refine BitVec.eq_of_getLsbD_eq fun i hi => ?_
  simp only [Field.rd, packI, BitVec.getLsbD_append, BitVec.getLsbD_extractLsb]
  interval_cases i <;> simp

@[simp] theorem funct3_packI : Field.funct3 (packI imm rs1 f3 rd op) = f3 := by
  refine BitVec.eq_of_getLsbD_eq fun i hi => ?_
  simp only [Field.funct3, packI, BitVec.getLsbD_append, BitVec.getLsbD_extractLsb]
  interval_cases i <;> simp

@[simp] theorem rs1_packI : Field.rs1 (packI imm rs1 f3 rd op) = rs1 := by
  refine BitVec.eq_of_getLsbD_eq fun i hi => ?_
  simp only [Field.rs1, packI, BitVec.getLsbD_append, BitVec.getLsbD_extractLsb]
  interval_cases i <;> simp

@[simp] theorem opcode_packS : Field.opcode (packS imm rs2 rs1 f3 op) = op := by
  refine BitVec.eq_of_getLsbD_eq fun i hi => ?_
  simp only [Field.opcode, packS, BitVec.getLsbD_append, BitVec.getLsbD_extractLsb]
  interval_cases i <;> simp

@[simp] theorem funct3_packS : Field.funct3 (packS imm rs2 rs1 f3 op) = f3 := by
  refine BitVec.eq_of_getLsbD_eq fun i hi => ?_
  simp only [Field.funct3, packS, BitVec.getLsbD_append, BitVec.getLsbD_extractLsb]
  interval_cases i <;> simp

@[simp] theorem rs1_packS : Field.rs1 (packS imm rs2 rs1 f3 op) = rs1 := by
  refine BitVec.eq_of_getLsbD_eq fun i hi => ?_
  simp only [Field.rs1, packS, BitVec.getLsbD_append, BitVec.getLsbD_extractLsb]
  interval_cases i <;> simp

@[simp] theorem rs2_packS : Field.rs2 (packS imm rs2 rs1 f3 op) = rs2 := by
  refine BitVec.eq_of_getLsbD_eq fun i hi => ?_
  simp only [Field.rs2, packS, BitVec.getLsbD_append, BitVec.getLsbD_extractLsb]
  interval_cases i <;> simp

@[simp] theorem opcode_packB : Field.opcode (packB imm rs2 rs1 f3 op) = op := by
  refine BitVec.eq_of_getLsbD_eq fun i hi => ?_
  simp only [Field.opcode, packB, BitVec.getLsbD_append, BitVec.getLsbD_extractLsb]
  interval_cases i <;> simp

@[simp] theorem funct3_packB : Field.funct3 (packB imm rs2 rs1 f3 op) = f3 := by
  refine BitVec.eq_of_getLsbD_eq fun i hi => ?_
  simp only [Field.funct3, packB, BitVec.getLsbD_append, BitVec.getLsbD_extractLsb]
  interval_cases i <;> simp

@[simp] theorem rs1_packB : Field.rs1 (packB imm rs2 rs1 f3 op) = rs1 := by
  refine BitVec.eq_of_getLsbD_eq fun i hi => ?_
  simp only [Field.rs1, packB, BitVec.getLsbD_append, BitVec.getLsbD_extractLsb]
  interval_cases i <;> simp

@[simp] theorem rs2_packB : Field.rs2 (packB imm rs2 rs1 f3 op) = rs2 := by
  refine BitVec.eq_of_getLsbD_eq fun i hi => ?_
  simp only [Field.rs2, packB, BitVec.getLsbD_append, BitVec.getLsbD_extractLsb]
  interval_cases i <;> simp

@[simp] theorem opcode_packU : Field.opcode (packU imm rd op) = op := by
  refine BitVec.eq_of_getLsbD_eq fun i hi => ?_
  simp only [Field.opcode, packU, BitVec.getLsbD_append, BitVec.getLsbD_extractLsb]
  interval_cases i <;> simp

@[simp] theorem rd_packU : Field.rd (packU imm rd op) = rd := by
  refine BitVec.eq_of_getLsbD_eq fun i hi => ?_
  simp only [Field.rd, packU, BitVec.getLsbD_append, BitVec.getLsbD_extractLsb]
  interval_cases i <;> simp

@[simp] theorem opcode_packJ : Field.opcode (packJ imm rd op) = op := by
  refine BitVec.eq_of_getLsbD_eq fun i hi => ?_
  simp only [Field.opcode, packJ, BitVec.getLsbD_append, BitVec.getLsbD_extractLsb]
  interval_cases i <;> simp

@[simp] theorem rd_packJ : Field.rd (packJ imm rd op) = rd := by
  refine BitVec.eq_of_getLsbD_eq fun i hi => ?_
  simp only [Field.rd, packJ, BitVec.getLsbD_append, BitVec.getLsbD_extractLsb]
  interval_cases i <;> simp

/-! ### The assemblers as one sign extension of a word's bits -/

/-- A field of `n` bits, zero-extended and then sign-extended from `n`, is its sign extension. -/
theorem signExtend_setWidth {n : Nat} (x : BitVec n) (h : 1 ≤ n ∧ n ≤ 32) :
    signExtend (x.setWidth 32) n h = x.signExtend 32 := by
  rw [signExtend_eq]
  simp [BitVec.setWidth_setWidth_of_le x h.2]

theorem immI_eq (w : Word) : immI w = (w.extractLsb 31 20).signExtend 32 :=
  signExtend_setWidth (w.extractLsb 31 20) _

theorem immS_eq (w : Word) : immS w = (w.extractLsb 31 25 ++ w.extractLsb 11 7).signExtend 32 :=
  signExtend_setWidth (w.extractLsb 31 25 ++ w.extractLsb 11 7) _

theorem immB_eq (w : Word) :
    immB w =
      (w.extractLsb 31 31 ++ w.extractLsb 7 7 ++ w.extractLsb 30 25 ++ w.extractLsb 11 8 ++
        0#1).signExtend 32 :=
  signExtend_setWidth
    (w.extractLsb 31 31 ++ w.extractLsb 7 7 ++ w.extractLsb 30 25 ++ w.extractLsb 11 8 ++ 0#1) _

theorem immJ_eq (w : Word) :
    immJ w =
      (w.extractLsb 31 31 ++ w.extractLsb 19 12 ++ w.extractLsb 20 20 ++ w.extractLsb 30 21 ++
        0#1).signExtend 32 :=
  signExtend_setWidth
    (w.extractLsb 31 31 ++ w.extractLsb 19 12 ++ w.extractLsb 20 20 ++ w.extractLsb 30 21 ++ 0#1) _

/-! ### What the assemblers read from a packed word -/

theorem immI_packI : immI (packI imm rs1 f3 rd op) = signExtend imm 12 := by
  simp only [immI, packI, signExtend_eq]
  congr 1
  refine BitVec.eq_of_getLsbD_eq fun i hi => ?_
  simp only [BitVec.getLsbD_append, BitVec.getLsbD_extractLsb, BitVec.getLsbD_setWidth]
  interval_cases i <;> simp

theorem immS_packS : immS (packS imm rs2 rs1 f3 op) = signExtend imm 12 := by
  simp only [immS, packS, signExtend_eq]
  congr 1
  refine BitVec.eq_of_getLsbD_eq fun i hi => ?_
  simp only [BitVec.getLsbD_append, BitVec.getLsbD_extractLsb, BitVec.getLsbD_setWidth]
  interval_cases i <;> simp

theorem immB_packB (h : imm.getLsbD 0 = false) :
    immB (packB imm rs2 rs1 f3 op) = signExtend imm 13 := by
  simp only [immB, packB, signExtend_eq]
  congr 1
  refine BitVec.eq_of_getLsbD_eq fun i hi => ?_
  simp only [BitVec.getLsbD_append, BitVec.getLsbD_extractLsb, BitVec.getLsbD_setWidth]
  interval_cases i <;> simp [-BitVec.getLsbD_eq_getElem, h]

/-- The U assembler, an arithmetic shift of the whole word, is a sign extension as well. -/
theorem immU_eq (w : Word) : immU w = (w.extractLsb 31 12).signExtend 32 := by
  refine BitVec.eq_of_getLsbD_eq fun i hi => ?_
  simp only [immU, BitVec.getLsbD_sshiftRight, BitVec.getLsbD_signExtend, BitVec.getLsbD_extractLsb,
    BitVec.msb_eq_getLsbD_last]
  interval_cases i <;> simp

theorem immU_packU : immU (packU imm rd op) = signExtend imm 20 := by
  simp only [immU_eq, packU, signExtend_eq]
  congr 1
  refine BitVec.eq_of_getLsbD_eq fun i hi => ?_
  simp only [BitVec.getLsbD_append, BitVec.getLsbD_extractLsb, BitVec.getLsbD_setWidth]
  interval_cases i <;> simp

theorem immJ_packJ (h : imm.getLsbD 0 = false) : immJ (packJ imm rd op) = signExtend imm 21 := by
  simp only [immJ, packJ, signExtend_eq]
  congr 1
  refine BitVec.eq_of_getLsbD_eq fun i hi => ?_
  simp only [BitVec.getLsbD_append, BitVec.getLsbD_extractLsb, BitVec.getLsbD_setWidth]
  interval_cases i <;> simp [-BitVec.getLsbD_eq_getElem, h]

end Extractors

/-! ### The checks as one test of the accepted set -/

theorem checkImmRange_12 (imm : S32) :
    checkImmRange imm 12 = if immFits12 imm then .ok () else .error .immOutOfRange := by
  simp only [checkImmRange_eq, immFits12, decide_eq_true_eq]
  norm_num

theorem checkImmRange_20 (imm : S32) :
    checkImmRange imm 20 = if immFits20 imm then .ok () else .error .immOutOfRange := by
  simp only [checkImmRange_eq, immFits20, decide_eq_true_eq]
  norm_num

/-- Bit 0 says whether the signed value is even. -/
theorem getLsbD_zero_eq_false_iff (imm : S32) : imm.getLsbD 0 = false ↔ imm.toInt % 2 = 0 := by
  have h : imm.getLsbD 0 = decide (imm.toNat % 2 = 1) := by
    simp [BitVec.getLsbD, Nat.testBit_zero]
  have hs := BitVec.toInt_eq_toNat_cond imm
  rw [h, decide_eq_false_iff_not]
  split at hs <;> omega

/-- The bit-0 test, then the range test of 13 bits: the even values from -4096 to 4094. -/
theorem checkEven_checkImmRange_13 (imm : S32) :
    (checkEven imm >>= fun _ => checkImmRange imm 13) =
      if immFitsBranch imm then .ok () else .error .immOutOfRange := by
  have he := getLsbD_zero_eq_false_iff imm
  rcases hb : imm.getLsbD 0 with _ | _
  · have := he.1 hb
    simp only [checkEven_eq, hb, checkImmRange_eq, immFitsBranch, bind, Except.bind]
    norm_num
    congr 1
    simp only [eq_iff_iff]
    omega
  · simp only [checkEven_eq, hb, immFitsBranch, bind, Except.bind]
    simp

/-- The bit-0 test, then the range test of 21 bits: the even values from -1048576 to 1048574. -/
theorem checkEven_checkImmRange_21 (imm : S32) :
    (checkEven imm >>= fun _ => checkImmRange imm 21) =
      if immFitsJump imm then .ok () else .error .immOutOfRange := by
  have he := getLsbD_zero_eq_false_iff imm
  rcases hb : imm.getLsbD 0 with _ | _
  · have := he.1 hb
    simp only [checkEven_eq, hb, checkImmRange_eq, immFitsJump, bind, Except.bind]
    norm_num
    congr 1
    simp only [eq_iff_iff]
    omega
  · simp only [checkEven_eq, hb, immFitsJump, bind, Except.bind]
    simp

/-! ### What an entry point answers -/

section EntryPoints
variable (rd rs1 rs2 : RegArg) (imm : S32)

theorem encodeAdd_eq :
    encodeAdd rd rs1 rs2 =
      if rd.toNat < 32 ∧ rs1.toNat < 32 ∧ rs2.toNat < 32 then
        .ok (packR funct7Add (regIndex rs2) (regIndex rs1) funct3Op (regIndex rd) opcodeOp)
      else .error .badReg := by
  by_cases h1 : rd.toNat < 32 <;> by_cases h2 : rs1.toNat < 32 <;> by_cases h3 : rs2.toNat < 32 <;>
    simp [encodeAdd, checkReg_eq, h1, h2, h3, bind, Except.bind, pure, Except.pure]

theorem encodeSub_eq :
    encodeSub rd rs1 rs2 =
      if rd.toNat < 32 ∧ rs1.toNat < 32 ∧ rs2.toNat < 32 then
        .ok (packR funct7Sub (regIndex rs2) (regIndex rs1) funct3Op (regIndex rd) opcodeOp)
      else .error .badReg := by
  by_cases h1 : rd.toNat < 32 <;> by_cases h2 : rs1.toNat < 32 <;> by_cases h3 : rs2.toNat < 32 <;>
    simp [encodeSub, checkReg_eq, h1, h2, h3, bind, Except.bind, pure, Except.pure]

theorem encodeAddi_eq :
    encodeAddi rd rs1 imm =
      if rd.toNat < 32 ∧ rs1.toNat < 32 then
        if immFits12 imm then
          .ok (packI imm (regIndex rs1) funct3Addi (regIndex rd) opcodeOpImm)
        else .error .immOutOfRange
      else .error .badReg := by
  by_cases h1 : rd.toNat < 32 <;> by_cases h2 : rs1.toNat < 32 <;> cases hi : immFits12 imm <;>
    simp [encodeAddi, checkReg_eq, checkImmRange_12, h1, h2, hi, bind, Except.bind, pure, Except.pure]

theorem encodeJalr_eq :
    encodeJalr rd rs1 imm =
      if rd.toNat < 32 ∧ rs1.toNat < 32 then
        if immFits12 imm then
          .ok (packI imm (regIndex rs1) funct3Jalr (regIndex rd) opcodeJalr)
        else .error .immOutOfRange
      else .error .badReg := by
  by_cases h1 : rd.toNat < 32 <;> by_cases h2 : rs1.toNat < 32 <;> cases hi : immFits12 imm <;>
    simp [encodeJalr, checkReg_eq, checkImmRange_12, h1, h2, hi, bind, Except.bind, pure, Except.pure]

theorem encodeLw_eq :
    encodeLw rd rs1 imm =
      if rd.toNat < 32 ∧ rs1.toNat < 32 then
        if immFits12 imm then
          .ok (packI imm (regIndex rs1) funct3Lw (regIndex rd) opcodeLoad)
        else .error .immOutOfRange
      else .error .badReg := by
  by_cases h1 : rd.toNat < 32 <;> by_cases h2 : rs1.toNat < 32 <;> cases hi : immFits12 imm <;>
    simp [encodeLw, checkReg_eq, checkImmRange_12, h1, h2, hi, bind, Except.bind, pure, Except.pure]

theorem encodeSw_eq :
    encodeSw rs1 rs2 imm =
      if rs1.toNat < 32 ∧ rs2.toNat < 32 then
        if immFits12 imm then
          .ok (packS imm (regIndex rs2) (regIndex rs1) funct3Sw opcodeStore)
        else .error .immOutOfRange
      else .error .badReg := by
  by_cases h1 : rs1.toNat < 32 <;> by_cases h2 : rs2.toNat < 32 <;> cases hi : immFits12 imm <;>
    simp [encodeSw, checkReg_eq, checkImmRange_12, h1, h2, hi, bind, Except.bind, pure, Except.pure]

theorem encodeBeq_eq :
    encodeBeq rs1 rs2 imm =
      if rs1.toNat < 32 ∧ rs2.toNat < 32 then
        if immFitsBranch imm then
          .ok (packB imm (regIndex rs2) (regIndex rs1) funct3Beq opcodeBranch)
        else .error .immOutOfRange
      else .error .badReg := by
  have h : encodeBeq rs1 rs2 imm =
      (checkReg rs1 >>= fun _ => checkReg rs2 >>= fun _ =>
        (checkEven imm >>= fun _ => checkImmRange imm 13) >>= fun _ =>
          .ok (packB imm (regIndex rs2) (regIndex rs1) funct3Beq opcodeBranch)) := by
    rw [bind_assoc]
    rfl
  rw [checkEven_checkImmRange_13] at h
  by_cases h1 : rs1.toNat < 32 <;> by_cases h2 : rs2.toNat < 32 <;>
    cases hi : immFitsBranch imm <;>
    simp [h, checkReg_eq, h1, h2, hi, bind, Except.bind]

theorem encodeLui_eq :
    encodeLui rd imm =
      if rd.toNat < 32 then
        if immFits20 imm then .ok (packU imm (regIndex rd) opcodeLui)
        else .error .immOutOfRange
      else .error .badReg := by
  by_cases h1 : rd.toNat < 32 <;> cases hi : immFits20 imm <;>
    simp [encodeLui, checkReg_eq, checkImmRange_20, h1, hi, bind, Except.bind, pure, Except.pure]

theorem encodeAuipc_eq :
    encodeAuipc rd imm =
      if rd.toNat < 32 then
        if immFits20 imm then .ok (packU imm (regIndex rd) opcodeAuipc)
        else .error .immOutOfRange
      else .error .badReg := by
  by_cases h1 : rd.toNat < 32 <;> cases hi : immFits20 imm <;>
    simp [encodeAuipc, checkReg_eq, checkImmRange_20, h1, hi, bind, Except.bind, pure, Except.pure]

theorem encodeJal_eq :
    encodeJal rd imm =
      if rd.toNat < 32 then
        if immFitsJump imm then .ok (packJ imm (regIndex rd) opcodeJal)
        else .error .immOutOfRange
      else .error .badReg := by
  have h : encodeJal rd imm =
      (checkReg rd >>= fun _ => (checkEven imm >>= fun _ => checkImmRange imm 21) >>= fun _ =>
        .ok (packJ imm (regIndex rd) opcodeJal)) := by
    rw [bind_assoc]
    rfl
  rw [checkEven_checkImmRange_21] at h
  by_cases h1 : rd.toNat < 32 <;> cases hi : immFitsJump imm <;>
    simp [h, checkReg_eq, h1, hi, bind, Except.bind]

end EntryPoints

end Sys2Proof
end

