-- ==== Sys2Proof/Laws/Decoder.lean ====
section
/-! SUPPORT. What the decoder can answer, said once: the inversion lemma, totality, and each row of the
opcode table as a condition on the extracted fields. -/

namespace Sys2Proof

/-- Everything a successful decode can be: the opcode and funct fields of one of the ten rows, and that row's
record of the word's own fields. -/
theorem decode_cases {w : Word} {i : Instr} (h : decode w = .ok i) :
    (Field.opcode w = opcodeOp ∧ Field.funct3 w = funct3Op ∧ Field.funct7 w = funct7Add ∧
      i = .add (Field.rd w) (Field.rs1 w) (Field.rs2 w)) ∨
    (Field.opcode w = opcodeOp ∧ Field.funct3 w = funct3Op ∧ Field.funct7 w = funct7Sub ∧
      i = .sub (Field.rd w) (Field.rs1 w) (Field.rs2 w)) ∨
    (Field.opcode w = opcodeOpImm ∧ Field.funct3 w = funct3Addi ∧
      i = .addi (Field.rd w) (Field.rs1 w) (immI w)) ∨
    (Field.opcode w = opcodeJalr ∧ Field.funct3 w = funct3Jalr ∧
      i = .jalr (Field.rd w) (Field.rs1 w) (immI w)) ∨
    (Field.opcode w = opcodeLoad ∧ Field.funct3 w = funct3Lw ∧
      i = .lw (Field.rd w) (Field.rs1 w) (immI w)) ∨
    (Field.opcode w = opcodeStore ∧ Field.funct3 w = funct3Sw ∧
      i = .sw (Field.rs1 w) (Field.rs2 w) (immS w)) ∨
    (Field.opcode w = opcodeBranch ∧ Field.funct3 w = funct3Beq ∧
      i = .beq (Field.rs1 w) (Field.rs2 w) (immB w)) ∨
    (Field.opcode w = opcodeLui ∧ i = .lui (Field.rd w) (immU w)) ∨
    (Field.opcode w = opcodeAuipc ∧ i = .auipc (Field.rd w) (immU w)) ∨
    (Field.opcode w = opcodeJal ∧ i = .jal (Field.rd w) (immJ w)) := by
  simp only [decode, decodeOp, decodeOpImm, decodeJalr, decodeLoad, decodeStore, decodeBranch] at h
  split_ifs at h <;> cases h <;> simp_all

/-- The decoder answers a record or one of its two errors. -/
theorem decode_total (w : Word) :
    (∃ i, decode w = .ok i) ∨ decode w = .error .badOpcode ∨ decode w = .error .badFunct := by
  simp only [decode, decodeOp, decodeOpImm, decodeJalr, decodeLoad, decodeStore, decodeBranch]
  split_ifs <;> simp

/-! ### The rows of the opcode table as conditions on fields -/

/-- The mask of opcode, funct3 and funct7 against a packed row. -/
theorem mask_opcode_funct3_funct7 (w : Word) (op : BitVec 7) (f3 : BitVec 3) (f7 : BitVec 7) :
    w &&& 0xFE00707F#32 = packR f7 0 0 f3 0 op ↔
      Field.opcode w = op ∧ Field.funct3 w = f3 ∧ Field.funct7 w = f7 := by
  have e : w &&& 0xFE00707F#32 = packR (Field.funct7 w) 0 0 (Field.funct3 w) 0 (Field.opcode w) := by
    refine BitVec.eq_of_getLsbD_eq fun i hi => ?_
    simp only [packR, Field.funct7, Field.funct3, Field.opcode, BitVec.getLsbD_and,
      BitVec.getLsbD_append, BitVec.getLsbD_extractLsb]
    interval_cases i <;> simp
  rw [e]
  refine ⟨fun h => ⟨?_, ?_, ?_⟩, ?_⟩
  · simpa using congrArg Field.opcode h
  · simpa using congrArg Field.funct3 h
  · simpa using congrArg Field.funct7 h
  · rintro ⟨rfl, rfl, rfl⟩
    rfl

/-- The mask of opcode and funct3 against a packed row. -/
theorem mask_opcode_funct3 (w : Word) (op : BitVec 7) (f3 : BitVec 3) :
    w &&& 0x0000707F#32 = packR 0 0 0 f3 0 op ↔ Field.opcode w = op ∧ Field.funct3 w = f3 := by
  have e : w &&& 0x0000707F#32 = packR 0 0 0 (Field.funct3 w) 0 (Field.opcode w) := by
    refine BitVec.eq_of_getLsbD_eq fun i hi => ?_
    simp only [packR, Field.funct3, Field.opcode, BitVec.getLsbD_and, BitVec.getLsbD_append,
      BitVec.getLsbD_extractLsb]
    interval_cases i <;> simp
  rw [e]
  refine ⟨fun h => ⟨?_, ?_⟩, ?_⟩
  · simpa using congrArg Field.opcode h
  · simpa using congrArg Field.funct3 h
  · rintro ⟨rfl, rfl⟩
    rfl

/-- The mask of the opcode against a packed row. -/
theorem mask_opcode (w : Word) (op : BitVec 7) :
    w &&& 0x0000007F#32 = packR 0 0 0 0 0 op ↔ Field.opcode w = op := by
  have e : w &&& 0x0000007F#32 = packR 0 0 0 0 0 (Field.opcode w) := by
    refine BitVec.eq_of_getLsbD_eq fun i hi => ?_
    simp only [packR, Field.opcode, BitVec.getLsbD_and, BitVec.getLsbD_append,
      BitVec.getLsbD_extractLsb]
    interval_cases i <;> simp
  rw [e]
  refine ⟨fun h => ?_, ?_⟩
  · simpa using congrArg Field.opcode h
  · rintro rfl
    rfl

/-- A word is in a mnemonic's row (30_encoding.md R40) when its fields hold that row's constants. -/
theorem matchesRow_iff (m : Mnemonic) (w : Word) :
    matchesRow m w = true ↔
      match m with
      | .add => Field.opcode w = opcodeOp ∧ Field.funct3 w = funct3Op ∧ Field.funct7 w = funct7Add
      | .sub => Field.opcode w = opcodeOp ∧ Field.funct3 w = funct3Op ∧ Field.funct7 w = funct7Sub
      | .addi => Field.opcode w = opcodeOpImm ∧ Field.funct3 w = funct3Addi
      | .jalr => Field.opcode w = opcodeJalr ∧ Field.funct3 w = funct3Jalr
      | .lw => Field.opcode w = opcodeLoad ∧ Field.funct3 w = funct3Lw
      | .sw => Field.opcode w = opcodeStore ∧ Field.funct3 w = funct3Sw
      | .beq => Field.opcode w = opcodeBranch ∧ Field.funct3 w = funct3Beq
      | .lui => Field.opcode w = opcodeLui
      | .auipc => Field.opcode w = opcodeAuipc
      | .jal => Field.opcode w = opcodeJal := by
  cases m <;> simp only [matchesRow, beq_iff_eq, maskWord, matchWord] <;>
    first
    | rw [← mask_opcode_funct3_funct7]; rfl
    | rw [← mask_opcode_funct3]; rfl
    | rw [← mask_opcode]; rfl

end Sys2Proof
end

