-- ==== Sys2Proof/Laws/State.lean ====
section
/-! SUPPORT. What each operation on the ports leaves in each field of the state. -/

namespace Sys2Proof.Machine

variable (s : State) (r : FlatRecord) (e : CodecError) (w : Word) (p : EncIn)

@[simp] theorem settleEncoder_encIn : (settleEncoder s).encIn = s.encIn := rfl
@[simp] theorem settleEncoder_encOut : (settleEncoder s).encOut = encoderUnit s.encIn := rfl
@[simp] theorem settleEncoder_decWord : (settleEncoder s).decWord = s.decWord := rfl
@[simp] theorem settleEncoder_decOut : (settleEncoder s).decOut = s.decOut := rfl

@[simp] theorem driveRecord_encIn : (driveRecord r s).encIn = s.encIn := rfl
@[simp] theorem driveRecord_encOut : (driveRecord r s).encOut = s.encOut := rfl
@[simp] theorem driveRecord_decWord : (driveRecord r s).decWord = s.decWord := rfl
@[simp] theorem driveRecord_decOut : (driveRecord r s).decOut = recordOut r := rfl

@[simp] theorem reportError_encIn : (reportError e s).encIn = s.encIn := rfl
@[simp] theorem reportError_encOut : (reportError e s).encOut = s.encOut := rfl
@[simp] theorem reportError_decWord : (reportError e s).decWord = s.decWord := rfl
@[simp] theorem reportError_decOut : (reportError e s).decOut = errorOut e := rfl

@[simp] theorem presentWord_encIn : (presentWord w s).encIn = s.encIn := rfl
@[simp] theorem presentWord_encOut : (presentWord w s).encOut = s.encOut := rfl
@[simp] theorem presentWord_decWord : (presentWord w s).decWord = w := rfl
@[simp] theorem presentWord_decOut : (presentWord w s).decOut = s.decOut := rfl

@[simp] theorem presentEncode_encIn : (presentEncode p s).encIn = p := rfl
@[simp] theorem presentEncode_encOut : (presentEncode p s).encOut = s.encOut := rfl
@[simp] theorem presentEncode_decWord : (presentEncode p s).decWord = s.decWord := rfl
@[simp] theorem presentEncode_decOut : (presentEncode p s).decOut = s.decOut := rfl

end Sys2Proof.Machine
end

