-- ==== Sys2Proof/Laws/Ops.lean ====
section
/-! SUPPORT. What the shared operations and `exec` can do, said once. -/

namespace Sys2Proof.Machine

/-- Every meaning drives the flattened form of its record and does nothing else. -/
theorem exec_eq (i : Instr) (s : State) : exec i s = .next (driveRecord (flatten i) s) := by
  cases i <;> rfl

/-- `mnemonicOfSel` undoes `variantCode`. -/
theorem mnemonicOfSel_variantCode (m : Mnemonic) : mnemonicOfSel (variantCode m) = some m := by
  cases m <;> rfl

/-- A code that selects an entry point is that entry point's code. -/
theorem variantCode_of_mnemonicOfSel {sel : BitVec 4} {m : Mnemonic}
    (h : mnemonicOfSel sel = some m) : sel = variantCode m := by
  revert sel m
  decide +revert

/-- The reserved codes are those from 10 up. -/
theorem mnemonicOfSel_eq_none_iff (sel : BitVec 4) : mnemonicOfSel sel = none ↔ 10 ≤ sel.toNat := by
  revert sel
  decide

/-- The variant code on the record ports is that of the record's variant. -/
theorem flatten_variant (i : Instr) : (flatten i).variant = variantCode i.mnemonic := by
  cases i <;> rfl

/-- The encoder over a record's own fields is `encode`. -/
theorem encodeBy_record (i : Instr) :
    encodeBy i.mnemonic (regArg (flatten i).rd) (regArg (flatten i).rs1) (regArg (flatten i).rs2)
      (flatten i).imm = encode i := by
  cases i <;> rfl

end Sys2Proof.Machine
end

