-- ==== Sys2Proof/Laws/PerInstr.lean ====
section
/-! SUPPORT. Statements for all instructions, one lemma per constructor.
`EncodeDefined`: the encoder answers a word for a record exactly when the immediate is in the accepted set
of its mnemonic (10_state.md R16, 42_encoder.md R114). -/

namespace Sys2Proof.Laws.EncodeDefined

/-- The record has a word if it is well-formed, and the encoder reports ImmOutOfRange if it is not. -/
def Statement (i : Instr) : Prop :=
  (i.wellFormed = true → ∃ w, encode i = .ok w) ∧
    (i.wellFormed = false → encode i = .error .immOutOfRange)

/-- A record's register operand is below 32. -/
theorem regArg_lt (r : RegIdx) : (regArg r).toNat < 32 := by
  have := r.isLt
  simp only [regArg, BitVec.toNat_setWidth]
  omega

theorem add (rd rs1 rs2 : RegIdx) : Statement (.add rd rs1 rs2) := by
  simp [Statement, Instr.wellFormed, encode, encodeAdd_eq, regArg_lt]

theorem sub (rd rs1 rs2 : RegIdx) : Statement (.sub rd rs1 rs2) := by
  simp [Statement, Instr.wellFormed, encode, encodeSub_eq, regArg_lt]

theorem addi (rd rs1 : RegIdx) (imm : S32) : Statement (.addi rd rs1 imm) := by
  simp +contextual [Statement, Instr.wellFormed, immAccepted, encode, encodeAddi_eq, regArg_lt]

theorem jalr (rd rs1 : RegIdx) (imm : S32) : Statement (.jalr rd rs1 imm) := by
  simp +contextual [Statement, Instr.wellFormed, immAccepted, encode, encodeJalr_eq, regArg_lt]

theorem lw (rd rs1 : RegIdx) (imm : S32) : Statement (.lw rd rs1 imm) := by
  simp +contextual [Statement, Instr.wellFormed, immAccepted, encode, encodeLw_eq, regArg_lt]

theorem sw (rs1 rs2 : RegIdx) (imm : S32) : Statement (.sw rs1 rs2 imm) := by
  simp +contextual [Statement, Instr.wellFormed, immAccepted, encode, encodeSw_eq, regArg_lt]

theorem beq (rs1 rs2 : RegIdx) (imm : S32) : Statement (.beq rs1 rs2 imm) := by
  simp +contextual [Statement, Instr.wellFormed, immAccepted, encode, encodeBeq_eq, regArg_lt]

theorem lui (rd : RegIdx) (imm : S32) : Statement (.lui rd imm) := by
  simp +contextual [Statement, Instr.wellFormed, immAccepted, encode, encodeLui_eq, regArg_lt]

theorem auipc (rd : RegIdx) (imm : S32) : Statement (.auipc rd imm) := by
  simp +contextual [Statement, Instr.wellFormed, immAccepted, encode, encodeAuipc_eq, regArg_lt]

theorem jal (rd : RegIdx) (imm : S32) : Statement (.jal rd imm) := by
  simp +contextual [Statement, Instr.wellFormed, immAccepted, encode, encodeJal_eq, regArg_lt]

end Sys2Proof.Laws.EncodeDefined
end

