-- ==== Sys2Proof/Tests/Slice0.lean ====
section
/-! SUPPORT. The model's own tests. Expected results are the spec's own vectors and examples (the rule or the
section of 95_test_vectors.md stands beside each); binary words are written out field by field from the
format's layout (30_encoding.md R32 to R37). Then one witness for the hypotheses of each statement. -/

namespace Sys2Proof.Tests

open Sys2Proof Sys2Proof.Machine

/-- A state with this word and these encoder inputs on the ports. -/
def ports (sel : BitVec 4) (rd rs1 rs2 : RegArg) (imm : S32) (w : Word) : State :=
  present ({ sel, rd, rs1, rs2, imm }, w) State.reset

/-- The state an outcome goes on with, if it does. -/
def nextOf : Host.Outcome State Fault Refusal → Option State
  | .next t => some t
  | .fault _ => none
  | .refused _ => none

/-- The encoder's outputs after one step. -/
def encAfter (s : State) : Option EncOut := (nextOf (step s)).map (·.encOut)

/-- The decoder's outputs after one step. -/
def decAfter (s : State) : Option DecOut := (nextOf (step s)).map (·.decOut)

/-! ### Well-formedness: one ill-formed term for each check (10_state.md R16) -/

theorem test_wf_refuses_addi_2048 : (Instr.addi 1#5 2#5 2048#32).wellFormed = false := by decide
theorem test_wf_refuses_jalr_below : (Instr.jalr 1#5 2#5 (BitVec.ofInt 32 (-2049))).wellFormed = false := by
  decide
theorem test_wf_refuses_lw_4095 : (Instr.lw 1#5 2#5 4095#32).wellFormed = false := by decide
theorem test_wf_refuses_sw_2048 : (Instr.sw 1#5 2#5 2048#32).wellFormed = false := by decide
theorem test_wf_refuses_beq_4096 : (Instr.beq 1#5 2#5 4096#32).wellFormed = false := by decide
theorem test_wf_refuses_beq_odd : (Instr.beq 1#5 2#5 3#32).wellFormed = false := by decide
theorem test_wf_refuses_lui_524288 : (Instr.lui 1#5 524288#32).wellFormed = false := by decide
theorem test_wf_refuses_auipc_below :
    (Instr.auipc 1#5 (BitVec.ofInt 32 (-524289))).wellFormed = false := by decide
theorem test_wf_refuses_jal_1048576 : (Instr.jal 1#5 1048576#32).wellFormed = false := by decide
theorem test_wf_refuses_jal_odd : (Instr.jal 1#5 (BitVec.ofInt 32 (-1))).wellFormed = false := by decide
theorem test_wf_accepts_odd_jalr : (Instr.jalr 1#5 2#5 3#32).wellFormed = true := by decide

/-! ### Words written out bit by bit (30_encoding.md R32 to R37, R39) decode to their instruction -/

-- funct7 | rs2 | rs1 | funct3 | rd | opcode
theorem test_decode_add :
    decode 0b0000000_00011_00010_000_00001_0110011#32 = .ok (.add 1#5 2#5 3#5) := by decide
theorem test_decode_sub :
    decode 0b0100000_00011_00010_000_00001_0110011#32 = .ok (.sub 1#5 2#5 3#5) := by decide
-- imm[11:0] | rs1 | funct3 | rd | opcode
theorem test_decode_addi :
    decode 0b100000000001_00010_000_00001_0010011#32 =
      .ok (.addi 1#5 2#5 (BitVec.ofInt 32 (-2047))) := by decide
theorem test_decode_jalr :
    decode 0b011111111111_00001_000_00000_1100111#32 = .ok (.jalr 0#5 1#5 2047#32) := by decide
theorem test_decode_lw :
    decode 0b000001100100_00010_010_01010_0000011#32 = .ok (.lw 10#5 2#5 100#32) := by decide
-- imm[11:5] | rs2 | rs1 | funct3 | imm[4:0] | opcode
theorem test_decode_sw :
    decode 0b1000000_01110_00010_010_01000_0100011#32 =
      .ok (.sw 2#5 14#5 (BitVec.ofInt 32 (-2040))) := by decide
-- imm[12] | imm[10:5] | rs2 | rs1 | funct3 | imm[4:1] | imm[11] | opcode
theorem test_decode_beq_sign :
    decode 0b1_000000_00010_00001_000_0000_0_1100011#32 =
      .ok (.beq 1#5 2#5 (BitVec.ofInt 32 (-4096))) := by decide
theorem test_decode_beq_parts :
    decode 0b0_000001_00010_00001_000_0001_1_1100011#32 =
      .ok (.beq 1#5 2#5 (BitVec.ofNat 32 (2048 + 32 + 2))) := by decide
-- imm[19:0] | rd | opcode
theorem test_decode_lui :
    decode 0b10000000000000000001_11111_0110111#32 =
      .ok (.lui 31#5 (BitVec.ofInt 32 (-524287))) := by decide
theorem test_decode_auipc :
    decode 0b00000000000000000001_00101_0010111#32 = .ok (.auipc 5#5 1#32) := by decide
-- imm[20] | imm[10:1] | imm[11] | imm[19:12] | rd | opcode
theorem test_decode_jal_sign :
    decode 0b1_0000000000_0_00000000_00001_1101111#32 =
      .ok (.jal 1#5 (BitVec.ofInt 32 (-1048576))) := by decide
theorem test_decode_jal_parts :
    decode 0b0_0000000001_1_00000001_00001_1101111#32 =
      .ok (.jal 1#5 (BitVec.ofNat 32 (4096 + 2048 + 2))) := by decide

/-! ### Words the decoder rejects (43_decoder.md R122 to R133; 95_test_vectors.md section K) -/

theorem test_zero_word_is_badOpcode : decode 0#32 = .error .badOpcode := by decide
theorem test_ones_word_is_badOpcode : decode 0xFFFFFFFF#32 = .error .badOpcode := by decide
theorem test_addi_funct3_1_is_badFunct : decode 0x00001013#32 = .error .badFunct := by decide
-- funct7 = 0000001, the multiply row of another extension, is no row of this block
theorem test_op_funct7_1_is_badFunct :
    decode 0b0000001_00011_00010_000_00001_0110011#32 = .error .badFunct := by decide
theorem test_jalr_funct3_is_matched :
    decode 0b000000000000_00001_001_00000_1100111#32 = .error .badFunct := by decide

/-! ### Encoding (42_encoder.md R101 to R113) -/

theorem test_encode_add : encodeAdd 1#8 2#8 3#8 = .ok 0x003100B3#32 := by decide
theorem test_encode_add_reads_all_8_bits : encodeAdd 1#8 2#8 255#8 = .error .badReg := by decide
theorem test_encode_sub : encodeSub 1#8 2#8 3#8 = .ok 0x403100B3#32 := by decide
theorem test_encode_addi : encodeAddi 1#8 2#8 (BitVec.ofInt 32 (-1)) = .ok 0xFFF10093#32 := by decide
theorem test_encode_jalr_odd : encodeJalr 0#8 1#8 1#32 = .ok 0x00108067#32 := by decide
theorem test_encode_lw : encodeLw 10#8 2#8 100#32 = .ok 0x06412503#32 := by decide
theorem test_encode_sw_base_first : encodeSw 2#8 14#8 8#32 = .ok 0x00E12423#32 := by decide
theorem test_encode_beq_2048 : encodeBeq 1#8 2#8 2048#32 = .ok 0x002080E3#32 := by decide
theorem test_encode_beq_odd : encodeBeq 1#8 2#8 3#32 = .error .immOutOfRange := by decide
theorem test_encode_lui : encodeLui 31#8 0x12345#32 = .ok 0x12345FB7#32 := by decide
theorem test_encode_auipc : encodeAuipc 5#8 1#32 = .ok 0x00001297#32 := by decide
theorem test_encode_jal : encodeJal 1#8 (BitVec.ofInt 32 (-4)) = .ok 0xFFDFF0EF#32 := by decide
theorem test_register_wins_over_immediate : encodeAddi 32#8 0#8 5000#32 = .error .badReg := by decide

/-! ### The ports (95_test_vectors.md section M) -/

theorem test_port_add_ignores_imm :
    encAfter (ports 0 1 2 3 0x7FFFFFFF#32 0) = some { status := 0, word := 0x003100B3#32 } := by decide
theorem test_port_lui_ignores_rs :
    encAfter (ports 7 5 99 200 0xFFFFFFFF#32 0) = some { status := 0, word := 0xFFFFF2B7#32 } := by decide
theorem test_port_sw_ignores_rd :
    encAfter (ports 5 77 2 14 8 0) = some { status := 0, word := 0x00E12423#32 } := by decide
theorem test_port_beq_odd :
    encAfter (ports 6 0 1 2 3 0) = some { status := 2, word := 0 } := by decide
theorem test_port_addi_badReg :
    encAfter (ports 2 32 0 0 5000 0) = some { status := 1, word := 0 } := by decide
theorem test_port_reserved_selector :
    encAfter (ports 12 1 2 3 4 0) = some { status := 6, word := 0 } := by decide
theorem test_port_decode_add :
    decAfter (ports 0 0 0 0 0 0x003100B3#32) =
      some { status := 0, record := { variant := 0, rd := 1, rs1 := 2, rs2 := 3, imm := 0 } } := by decide
theorem test_port_decode_sw_rd_zero :
    decAfter (ports 0 0 0 0 0 0xFFFFAFA3#32) =
      some { status := 0, record := { variant := 5, rd := 0, rs1 := 31, rs2 := 31, imm := 0xFFFFFFFF } } := by
  decide
theorem test_port_decode_jal :
    decAfter (ports 0 0 0 0 0 0xFFDFF0EF#32) =
      some { status := 0, record := { variant := 9, rd := 1, rs1 := 0, rs2 := 0, imm := 0xFFFFFFFC } } := by
  decide
theorem test_port_decode_lui :
    decAfter (ports 0 0 0 0 0 0x12345FB7#32) =
      some { status := 0, record := { variant := 7, rd := 31, rs1 := 0, rs2 := 0, imm := 0x12345 } } := by
  decide
theorem test_port_decode_badFunct :
    decAfter (ports 0 0 0 0 0 0x00001013#32) =
      some { status := 4, record := { variant := 15, rd := 0, rs1 := 0, rs2 := 0, imm := 0 } } := by decide
theorem test_port_decode_badOpcode :
    decAfter (ports 0 0 0 0 0 0xFFFFFFFF#32) =
      some { status := 3, record := { variant := 15, rd := 0, rs1 := 0, rs2 := 0, imm := 0 } } := by decide

/-! ### Placing a word, and the boundary -/

theorem test_decodeTableWord : decodeTableWord 32 0x403100B3 = some (.sub 1#5 2#5 3#5) := by decide
theorem test_decodeTableWord_refuses : decodeTableWord 32 0 = none := by decide
theorem test_withFetchWord_runs_the_word :
    nextOf (step (State.reset.withFetchWord 32 0x403100B3)) =
      nextOf (exec (.sub 1#5 2#5 3#5) (State.reset.withFetchWord 32 0x403100B3)) := by decide
theorem test_boundary_failure_keeps_the_location :
    boundaryEncode .addi 1 2 0 2048#32 (some 7#32) = (.immOutOfRange, some 7#32) := by decide
theorem test_boundary_success_writes :
    boundaryDecode 0x12345FB7#32 (some noRecord) =
      (.ok, some { variant := 7, rd := 31, rs1 := 0, rs2 := 0, imm := 0x12345 }) := by decide

/-! ### Witnesses: values that meet the hypotheses of each statement, at the edges of its clauses -/

theorem witness_signExtend_width_1 : (1 ≤ 1 ∧ 1 ≤ 32) ∧ (signExtend 1#32 1).toInt = -1 := by decide
theorem witness_signExtend_width_32 :
    (1 ≤ 32 ∧ 32 ≤ 32) ∧ (signExtend 0x80000000#32 32).toInt = -2147483648 := by decide
theorem witness_signExtend_agreeing_below_12 :
    (∀ k, k < 12 → (0x00000FFF#32).getLsbD k = (0xABCDEFFF#32).getLsbD k) ∧
      0x00000FFF#32 ≠ 0xABCDEFFF#32 := by decide
theorem witness_immRange_passes_at_both_ends :
    checkImmRange (BitVec.ofInt 32 (-2048)) 12 = .ok () ∧ checkImmRange 2047#32 12 = .ok () := by decide
theorem witness_immRange_fails_past_both_ends :
    checkImmRange (BitVec.ofInt 32 (-2049)) 12 = .error .immOutOfRange ∧
      checkImmRange 2048#32 12 = .error .immOutOfRange := by decide
theorem witness_immRange_widths_1_and_31 :
    checkImmRange 0#32 1 = .ok () ∧ checkImmRange 1#32 1 = .error .immOutOfRange ∧
      checkImmRange 0x3FFFFFFF#32 31 = .ok () ∧
      checkImmRange 0x40000000#32 31 = .error .immOutOfRange := by decide
theorem witness_checkReg_edges :
    checkReg 31#8 = .ok () ∧ checkReg 32#8 = .error .badReg ∧ checkReg 255#8 = .error .badReg := by decide
theorem witness_packed_immediates :
    immFits12 (BitVec.ofInt 32 (-2048)) = true ∧ immFits12 2047#32 = true ∧
      immFitsBranch (BitVec.ofInt 32 (-4096)) = true ∧ immFitsBranch 4094#32 = true ∧
      immFits20 (BitVec.ofInt 32 (-524288)) = true ∧ immFits20 524287#32 = true ∧
      immFitsJump (BitVec.ofInt 32 (-1048576)) = true ∧ immFitsJump 1048574#32 = true := by decide
theorem witness_resultTable_badReg_each_operand :
    encodeBy .add 32 0 0 0 = .error .badReg ∧ encodeBy .add 0 32 0 0 = .error .badReg ∧
      encodeBy .add 0 0 32 0 = .error .badReg := by decide
theorem witness_resultTable_badImm :
    encodeBy .sw 255 31 31 2048#32 = .error .immOutOfRange ∧ immAccepted .sw 2048#32 = false := by decide
theorem witness_resultTable_ok :
    encodeBy .jal 31 255 255 1048574#32 = .ok 0x7FFFFFEF#32 ∧
      immAccepted .jal 1048574#32 = true := by decide
theorem witness_encode_registers : (31#8).toNat < 32 ∧ 32 ≤ (32#8).toNat := by decide
theorem witness_encode_immediates :
    (-2048 ≤ (BitVec.ofInt 32 (-2048)).toInt ∧ (BitVec.ofInt 32 (-2048)).toInt ≤ 2047) ∧
      (-4096 ≤ (4094#32).toInt ∧ (4094#32).toInt ≤ 4094 ∧ (4094#32).toInt % 2 = 0) ∧
      (-524288 ≤ (524287#32).toInt ∧ (524287#32).toInt ≤ 524287) ∧
      (-1048576 ≤ (1048574#32).toInt ∧ (1048574#32).toInt ≤ 1048574 ∧
        (1048574#32).toInt % 2 = 0) := by decide
theorem witness_injective_untaken_operands_differ :
    encodeBy .lui 5 99 200 1#32 = .ok 0x000012B7#32 ∧ encodeBy .lui 5 0 0 1#32 = .ok 0x000012B7#32 := by
  decide
theorem witness_rows_add_sub :
    0x003100B3#32 &&& 0xFE00707F#32 = 0x00000033#32 ∧
      0x403100B3#32 &&& 0xFE00707F#32 = 0x40000033#32 := by decide
theorem witness_rows_funct3 :
    0xFFF10093#32 &&& 0x0000707F#32 = 0x00000013#32 ∧ 0x00008067#32 &&& 0x0000707F#32 = 0x00000067#32 ∧
      0x06412503#32 &&& 0x0000707F#32 = 0x00002003#32 ∧ 0x00E12423#32 &&& 0x0000707F#32 = 0x00002023#32 ∧
      0x00208463#32 &&& 0x0000707F#32 = 0x00000063#32 := by decide
theorem witness_rows_opcode :
    0x12345FB7#32 &&& 0x0000007F#32 = 0x00000037#32 ∧ 0x00001297#32 &&& 0x0000007F#32 = 0x00000017#32 ∧
      0xFFDFF0EF#32 &&& 0x0000007F#32 = 0x0000006F#32 := by decide
theorem witness_decoded_words :
    decode 0xFFFFAFA3#32 = .ok (.sw 31#5 31#5 (BitVec.ofInt 32 (-1))) ∧
      matchesRow .sw 0xFFFFAFA3#32 = true := by decide
theorem witness_roundTrip_at_the_bounds :
    (Instr.jal 31#5 1048574#32).wellFormed = true ∧
      (Instr.beq 31#5 31#5 (BitVec.ofInt 32 (-4096))).wellFormed = true := by decide
theorem witness_frame_exec_in_two_states :
    nextOf (exec (.lw 1 2 3) State.reset) ≠ nextOf (exec (.lw 1 2 3) (ports 9 1 2 3 4 5)) ∧
      nextOf (exec (.lw 1 2 3) State.reset) ≠ none := by decide
theorem witness_zeroFill_one_word_per_format :
    (ports 0 0 0 0 0 0x403100B3#32).decWord = 0x403100B3#32 ∧
      decode 0x403100B3#32 = .ok (.sub 1#5 2#5 3#5) ∧
      decode 0x06412503#32 = .ok (.lw 10#5 2#5 100#32) ∧
      decode 0xFFFFAFA3#32 = .ok (.sw 31#5 31#5 (BitVec.ofInt 32 (-1))) ∧
      decode 0x002080E3#32 = .ok (.beq 1#5 2#5 2048#32) ∧
      decode 0xFFFFF2B7#32 = .ok (.lui 5#5 (BitVec.ofInt 32 (-1))) ∧
      decode 0xFFDFF0EF#32 = .ok (.jal 1#5 (BitVec.ofInt 32 (-4))) := by decide
theorem witness_flatten_equal_records : flatten (.add 1 2 3) = flatten (.add 1 2 3) := by decide
theorem witness_step_runs_and_reports :
    decode (ports 0 0 0 0 0 0x12345FB7#32).decWord = .ok (.lui 31#5 0x12345#32) ∧
      decode (ports 0 0 0 0 0 0x00001013#32).decWord = .error .badFunct := by decide
theorem witness_settled_state : Settled State.reset := ⟨by decide, by decide⟩
theorem witness_units_share_nothing :
    encAfter (ports 7 5 99 200 0xFFFFFFFF#32 0) = encAfter (ports 7 5 99 200 0xFFFFFFFF#32 0x06412503#32) ∧
      decAfter (ports 0 0 0 0 0 0x06412503#32) = decAfter (ports 12 255 1 2 3 0x06412503#32) ∧
      encAfter (ports 7 5 99 200 0xFFFFFFFF#32 0) ≠ none ∧
      decAfter (ports 0 0 0 0 0 0x06412503#32) ≠ none := by decide
theorem witness_selector_edges :
    (9#4) = variantCode .jal ∧ 10 ≤ (10#4).toNat ∧ 10 ≤ (15#4).toNat ∧
      encAfter (ports 9 1 0 0 0xFFFFFFFC#32 0) = some { status := 0, word := 0xFFDFF0EF#32 } ∧
      encAfter (ports 10 0 0 0 0 0) = some { status := 6, word := 0 } ∧
      encAfter (ports 15 0 0 0 0 0) = some { status := 6, word := 0 } := by decide
theorem witness_ports_badReg_badImm :
    encodeBy .beq 0 32 2 8#32 = .error .badReg ∧ encodeBy .beq 0 1 2 4095#32 = .error .immOutOfRange := by
  decide
theorem witness_untaken_operands_differ :
    (ports 7 5 99 200 1 0).encIn ≠ (ports 7 5 0 0 1 0).encIn ∧
      (ports 7 5 99 200 1 0).encIn.sel = variantCode .lui ∧ takesRs1 .lui = false ∧
      takesRs2 .lui = false := by decide
theorem witness_feedback_encoder :
    encAfter (ports 5 77 2 14 8 0) = some { status := 0, word := 0x00E12423#32 } ∧
      decAfter (ports 5 77 2 14 8 0x00E12423#32) =
        some { status := 0, record := { variant := 5, rd := 0, rs1 := 2, rs2 := 14, imm := 8 } } := by decide
theorem witness_feedback_decoder :
    decAfter (ports 0 0 0 0 0 0xFFFFF2B7#32) =
        some { status := 0, record := { variant := 7, rd := 5, rs1 := 0, rs2 := 0, imm := 0xFFFFFFFF } } ∧
      encAfter (ports 7 5 0 0 0xFFFFFFFF#32 0) = some { status := 0, word := 0xFFFFF2B7#32 } := by decide
theorem witness_boundary_block_outcomes :
    encodeBy .addi 1 2 0 2047#32 = .ok 0x7FF10093#32 ∧
      encodeBy .addi 1 2 0 2048#32 = .error .immOutOfRange ∧
      decode 0x00008067#32 = .ok (.jalr 0#5 1#5 0#32) ∧ decode 0#32 = .error .badOpcode := by decide
theorem witness_boundary_null_location_accepted_operands :
    ∃ m rd rs1 rs2 imm, boundaryEncode m rd rs1 rs2 imm none = (.nullOutputPointer, none) := by
  refine ⟨.addi, 1, 2, 0, 2047#32, ?_⟩
  have h : encodeBy .addi 1 2 0 2047#32 = .ok 0x7FF10093#32 := by decide
  simp only [boundaryEncode, h, nullStatus]
  cases Config.nullTestedFirstOnEncode .addi <;> rfl

end Sys2Proof.Tests
end

section
/-! PROOFS. What the two units drive for each outcome of an operation, and the reset state. -/

namespace Sys2Proof.Machine

/-! ### The units' outputs, one equation per outcome -/

/-- 44_interfaces.md R151: an accepted operation. -/
theorem encoderUnit_of_ok {p : EncIn} {m : Mnemonic} {w : Word} (hsel : mnemonicOfSel p.sel = some m)
    (h : encodeBy m p.rd p.rs1 p.rs2 p.imm = .ok w) :
    encoderUnit p = { status := statusCode .ok, word := w } := by
  simp only [encoderUnit, hsel, h]

/-- 44_interfaces.md R151, R155: a failed operation drives word 0. -/
theorem encoderUnit_of_error {p : EncIn} {m : Mnemonic} {e : CodecError}
    (hsel : mnemonicOfSel p.sel = some m) (h : encodeBy m p.rd p.rs1 p.rs2 p.imm = .error e) :
    encoderUnit p = { status := statusCode (errorStatus e), word := 0#32 } := by
  simp only [encoderUnit, hsel, h]

/-- 44_interfaces.md R158: a reserved selector. -/
theorem encoderUnit_of_reserved {p : EncIn} (hsel : mnemonicOfSel p.sel = none) :
    encoderUnit p = { status := statusCode .unknown, word := 0#32 } := by
  simp only [encoderUnit, hsel]

/-- 44_interfaces.md R152: a word that decodes. -/
theorem decoderUnit_of_ok {w : Word} {i : Instr} (h : decode w = .ok i) :
    decoderUnit w = recordOut (flatten i) := by
  simp only [decoderUnit, h]

/-- 44_interfaces.md R152, R155: a word that does not decode. -/
theorem decoderUnit_of_error {w : Word} {e : CodecError} (h : decode w = .error e) :
    decoderUnit w = errorOut e := by
  simp only [decoderUnit, h]

/-! ### The reset state (10_state.md R19) -/

/-- The encoder's zero inputs select `encode_add(0, 0, 0)`. -/
theorem mnemonicOfSel_reset : mnemonicOfSel State.reset.encIn.sel = some .add :=
  mnemonicOfSel_variantCode .add

/-- All three register operands are 0, so they are accepted, and the word is `add` with indices 0. -/
theorem encodeBy_add_reset :
    encodeBy .add State.reset.encIn.rd State.reset.encIn.rs1 State.reset.encIn.rs2 State.reset.encIn.imm =
      .ok 0x00000033#32 := by
  have hpack : packR funct7Add (regIndex 0#8) (regIndex 0#8) funct3Op (regIndex 0#8) opcodeOp =
      0x00000033#32 := by decide
  simp [encodeBy, State.reset, encodeAdd_eq, hpack]

/-- The decoder's zero word has opcode 0, which no row has. -/
theorem decode_reset : decode State.reset.decWord = .error .badOpcode := by
  decide

theorem encOut_reset : State.reset.encOut = encoderUnit State.reset.encIn :=
  (encoderUnit_of_ok mnemonicOfSel_reset encodeBy_add_reset).symm

theorem decOut_reset : State.reset.decOut = decoderUnit State.reset.decWord :=
  (decoderUnit_of_error decode_reset).symm

/-- Settles O40: each unit's reset outputs are what it drives for the reset inputs, an accepted
`encode_add(0, 0, 0)` and a BadOpcode for the word 0. -/
theorem resetStateIsSettled : Obligations.ResetStateIsSettled :=
  ⟨encOut_reset, decOut_reset⟩

end Sys2Proof.Machine
end

section
/-! PROOFS. One step is both units settling their outputs; repeated steps and streams of requests
(20_memory.md R23, R24). -/

namespace Sys2Proof.Machine

/-! ### The state a step answers -/

/-- Both units drive their outputs from the inputs that stand on the ports (44_interfaces.md R151, R152).
`step_eq` ties it to the model: it is what a step answers. -/
def settleOutputs (s : State) : State :=
  { s with encOut := encoderUnit s.encIn, decOut := decoderUnit s.decWord }

@[simp] theorem settleOutputs_encIn (s : State) : (settleOutputs s).encIn = s.encIn := rfl
@[simp] theorem settleOutputs_encOut (s : State) : (settleOutputs s).encOut = encoderUnit s.encIn := rfl
@[simp] theorem settleOutputs_decWord (s : State) : (settleOutputs s).decWord = s.decWord := rfl
@[simp] theorem settleOutputs_decOut (s : State) : (settleOutputs s).decOut = decoderUnit s.decWord := rfl

theorem driveRecord_settleEncoder {s : State} {i : Instr} (h : decode s.decWord = .ok i) :
    driveRecord (flatten i) (settleEncoder s) = settleOutputs s := by
  simp only [settleOutputs, decoderUnit_of_ok h, driveRecord, settleEncoder]

theorem reportError_settleEncoder {s : State} {e : CodecError} (h : decode s.decWord = .error e) :
    reportError e (settleEncoder s) = settleOutputs s := by
  simp only [settleOutputs, decoderUnit_of_error h, reportError, settleEncoder]

/-- No step stops, whether the word decodes or not (60_exceptions.md R182, R184). -/
theorem step_eq (s : State) : step s = .next (settleOutputs s) := by
  cases h : decode s.decWord with
  | ok i => simp only [step, h, exec_eq, driveRecord_settleEncoder h]
  | error e => simp only [step, h, reportError_settleEncoder h]

theorem settleOutputs_of_settled {s : State} (h : Settled s) : settleOutputs s = s := by
  obtain ⟨henc, hdec⟩ := h
  rw [settleOutputs, ← henc, ← hdec]

/-! ### Repeating an operation (20_memory.md R23) -/

/-- A state that steps to itself is the end of every run from it, on any machine. -/
theorem run_of_step_eq_self {M : Host.Core} {s : M.State} (h : M.step s = .next s) (k : Nat) :
    M.run k s = .next s := by
  induction k with
  | zero => rfl
  | succ k ih => simp only [Host.Core.run, h, ih]

/-- Settles O41: a settled state steps to itself, so every run from it stays there. -/
theorem repeatedOperationsChangeNothing : Obligations.RepeatedOperationsChangeNothing := by
  intro k s hs
  have hstep : step s = .next s := by rw [step_eq, settleOutputs_of_settled hs]
  exact run_of_step_eq_self (M := Sys2Proof.core) hstep k

/-! ### A stream of operations (20_memory.md R24) -/

@[simp] theorem present_encIn (r : Request) (s : State) : (present r s).encIn = r.1 := rfl
@[simp] theorem present_decWord (r : Request) (s : State) : (present r s).decWord = r.2 := rfl

/-- The first response is the function of the first request alone; the state it leaves is passed on. -/
theorem serve_cons (r : Request) (rs : List Request) (s : State) :
    serve (r :: rs) s =
      (serve rs (settleOutputs (present r s))).map ((encoderUnit r.1, decoderUnit r.2) :: ·) := by
  simp only [serve, step_eq, settleOutputs_encOut, settleOutputs_decOut, present_encIn, present_decWord]

/-- Settles O42, by induction on the requests for every state: what an earlier request left on the ports
is a state like any other. -/
theorem streamResultsAreThoseOfEachOperationAlone :
    Obligations.StreamResultsAreThoseOfEachOperationAlone := by
  intro requests
  induction requests with
  | nil => exact fun _ => rfl
  | cons r rs ih =>
    intro s
    rw [serve_cons, ih, Option.map_some, List.map_cons]

end Sys2Proof.Machine
end

section
/-! PROOFS. The three classes of words: the record a row's word decodes to, and the words of each error
(30_encoding.md R40, R42; 43_decoder.md R135, R139). -/

namespace Sys2Proof

/-! ### A word of a row -/

/-- The record of the word's own fields, in the form of the mnemonic's format (43_decoder.md R124 to R133).
`decode_of_matchesRow` ties it to the model. -/
def rowRecord (m : Mnemonic) (w : Word) : Instr :=
  match m with
  | .add => .add (Field.rd w) (Field.rs1 w) (Field.rs2 w)
  | .sub => .sub (Field.rd w) (Field.rs1 w) (Field.rs2 w)
  | .addi => .addi (Field.rd w) (Field.rs1 w) (immI w)
  | .jalr => .jalr (Field.rd w) (Field.rs1 w) (immI w)
  | .lw => .lw (Field.rd w) (Field.rs1 w) (immI w)
  | .sw => .sw (Field.rs1 w) (Field.rs2 w) (immS w)
  | .beq => .beq (Field.rs1 w) (Field.rs2 w) (immB w)
  | .lui => .lui (Field.rd w) (immU w)
  | .auipc => .auipc (Field.rd w) (immU w)
  | .jal => .jal (Field.rd w) (immJ w)

@[simp] theorem mnemonic_rowRecord (m : Mnemonic) (w : Word) : (rowRecord m w).mnemonic = m := by
  cases m <;> rfl

/-- The decoder tries the opcodes one after another, and the nine constants differ, so the word reaches the
arm of its own row. -/
theorem decode_of_matchesRow {m : Mnemonic} {w : Word} (h : matchesRow m w = true) :
    decode w = .ok (rowRecord m w) := by
  rw [matchesRow_iff] at h
  cases m with
  | add | sub =>
    obtain ⟨hop, h3, h7⟩ := h
    simp [decode, decodeOp, rowRecord, hop, h3, h7, funct7Add, funct7Sub]
  | addi | jalr | lw | sw | beq =>
    obtain ⟨hop, h3⟩ := h
    simp [decode, decodeOpImm, decodeJalr, decodeLoad, decodeStore, decodeBranch, rowRecord, hop, h3,
      opcodeOp, opcodeOpImm, opcodeJalr, opcodeLoad, opcodeStore, opcodeBranch]
  | lui | auipc | jal =>
    simp [decode, rowRecord, h, opcodeOp, opcodeOpImm, opcodeJalr, opcodeLoad, opcodeStore, opcodeBranch,
      opcodeLui, opcodeAuipc, opcodeJal]

/-- No word is in two rows: the decoder answers one record. -/
theorem matchesRow_unique {m m' : Mnemonic} {w : Word} (h : matchesRow m w = true)
    (h' : matchesRow m' w = true) : m = m' := by
  have heq : rowRecord m w = rowRecord m' w :=
    Except.ok.inj ((decode_of_matchesRow h).symm.trans (decode_of_matchesRow h'))
  simpa using congrArg Instr.mnemonic heq

/-- The converse of `decode_of_matchesRow`: a record comes from the row of its own mnemonic. -/
theorem matchesRow_of_decode {w : Word} {i : Instr} (h : decode w = .ok i) :
    matchesRow i.mnemonic w = true := by
  rw [matchesRow_iff]
  rcases decode_cases h with ⟨hop, h3, h7, rfl⟩ | ⟨hop, h3, h7, rfl⟩ | ⟨hop, h3, rfl⟩ | ⟨hop, h3, rfl⟩ |
    ⟨hop, h3, rfl⟩ | ⟨hop, h3, rfl⟩ | ⟨hop, h3, rfl⟩ | ⟨hop, rfl⟩ | ⟨hop, rfl⟩ | ⟨hop, rfl⟩
  all_goals simp [Instr.mnemonic, *]

theorem decode_ok_iff_matchesRow (w : Word) :
    (∃ i, decode w = .ok i) ↔ ∃ m, matchesRow m w = true :=
  ⟨fun ⟨_, h⟩ => ⟨_, matchesRow_of_decode h⟩, fun ⟨_, h⟩ => ⟨_, decode_of_matchesRow h⟩⟩

/-! ### The two errors -/

/-- BadOpcode comes from the decoder's last arm alone: each arm of a recognised opcode answers a record or
BadFunct. -/
theorem decode_badOpcode_iff (w : Word) :
    decode w = .error .badOpcode ↔ Field.opcode w ∉ recognisedOpcodes := by
  simp only [recognisedOpcodes, List.mem_cons, List.not_mem_nil, or_false, not_or]
  constructor
  · intro h
    simp only [decode, decodeOp, decodeOpImm, decodeJalr, decodeLoad, decodeStore, decodeBranch] at h
    split_ifs at h <;> cases h
    simp only [not_false_eq_true, and_self, *]
  · rintro ⟨h1, h2, h3, h4, h5, h6, h7, h8, h9⟩
    simp only [decode, if_false, h1, h2, h3, h4, h5, h6, h7, h8, h9]

/-- BadFunct is what is left of the three answers. -/
theorem decode_badFunct_iff (w : Word) :
    decode w = .error .badFunct ↔
      decode w ≠ .error .badOpcode ∧ ¬∃ i, decode w = .ok i := by
  constructor
  · intro h
    simp [h]
  · rintro ⟨hop, hok⟩
    exact ((decode_total w).resolve_left hok).resolve_left hop

/-- Settles O21: a record exactly in a row, BadOpcode exactly from the last arm, BadFunct otherwise. -/
theorem decodeSortsEveryWordIntoThreeClasses : Obligations.DecodeSortsEveryWordIntoThreeClasses := by
  intro w
  refine ⟨decode_ok_iff_matchesRow w, decode_badOpcode_iff w, ?_⟩
  rw [decode_badFunct_iff, decode_ok_iff_matchesRow, ne_eq, decode_badOpcode_iff, not_not]
  simp only [not_exists, Bool.not_eq_true]

end Sys2Proof
end

section
/-! PROOFS. How many words each class holds (30_encoding.md R42): a word is its six fields, a row fixes some
of them, and the rows are disjoint. -/

namespace Sys2Proof

/-! ### A word as its six fields -/

theorem packR_fields (w : Word) :
    packR (Field.funct7 w) (Field.rs2 w) (Field.rs1 w) (Field.funct3 w) (Field.rd w) (Field.opcode w) =
      w := by
  refine BitVec.eq_of_getLsbD_eq fun i hi => ?_
  simp only [packR, Field.funct7, Field.rs2, Field.rs1, Field.funct3, Field.rd, Field.opcode,
    BitVec.getLsbD_append, BitVec.getLsbD_extractLsb]
  interval_cases i <;> simp

/-- A word is three selecting fields, the ones a row of R40 may fix, and three register fields, which no row
fixes. -/
def splitWord : Word ≃ (BitVec 7 × BitVec 3 × BitVec 7) × (RegIdx × RegIdx × RegIdx) where
  toFun w := ((Field.opcode w, Field.funct3 w, Field.funct7 w), (Field.rs2 w, Field.rs1 w, Field.rd w))
  invFun p := packR p.1.2.2 p.2.1 p.2.2.1 p.1.2.1 p.2.2.2 p.1.1
  left_inv := packR_fields
  right_inv p := by simp

theorem card_bitVec (n : Nat) : Nat.card (BitVec n) = 2 ^ n := by
  rw [Nat.card_congr BitVec.equivFin.toEquiv, Nat.card_fin]

/-- Whatever three sets the selecting fields are asked to lie in, the 15 register bits are free. -/
theorem ncard_fields_mem (Op : Set (BitVec 7)) (F3 : Set (BitVec 3)) (F7 : Set (BitVec 7)) :
    {w : Word | Field.opcode w ∈ Op ∧ Field.funct3 w ∈ F3 ∧ Field.funct7 w ∈ F7}.ncard =
      Op.ncard * (F3.ncard * F7.ncard) * 2 ^ 15 := by
  have hset : {w : Word | Field.opcode w ∈ Op ∧ Field.funct3 w ∈ F3 ∧ Field.funct7 w ∈ F7} =
      splitWord ⁻¹' ((Op ×ˢ F3 ×ˢ F7) ×ˢ Set.univ) := by
    ext w
    simp [splitWord]
  rw [hset, Set.ncard_preimage_of_injective_subset_range splitWord.injective (by simp)]
  simp only [Set.ncard_prod, Set.ncard_univ, Nat.card_prod, card_bitVec, ← pow_add, Nat.reduceAdd]

theorem ncard_opcode_mem (Op : Set (BitVec 7)) :
    {w : Word | Field.opcode w ∈ Op}.ncard = Op.ncard * 2 ^ 25 := by
  have h := ncard_fields_mem Op Set.univ Set.univ
  simpa only [Set.mem_univ, and_true, Set.ncard_univ, card_bitVec, mul_assoc, ← pow_add,
    Nat.reduceAdd] using h

theorem ncard_opcode_funct3 (op : BitVec 7) (f3 : BitVec 3) :
    {w : Word | Field.opcode w = op ∧ Field.funct3 w = f3}.ncard = 2 ^ 22 := by
  have h := ncard_fields_mem {op} {f3} Set.univ
  simpa only [Set.mem_singleton_iff, Set.mem_univ, and_true, Set.ncard_singleton, Set.ncard_univ,
    card_bitVec, one_mul, ← pow_add, Nat.reduceAdd] using h

theorem ncard_opcode_funct3_funct7 (op : BitVec 7) (f3 : BitVec 3) (f7 : BitVec 7) :
    {w : Word | Field.opcode w = op ∧ Field.funct3 w = f3 ∧ Field.funct7 w = f7}.ncard = 2 ^ 15 := by
  have h := ncard_fields_mem {op} {f3} {f7}
  simpa only [Set.mem_singleton_iff, Set.ncard_singleton, one_mul] using h

/-! ### The rows -/

/-- How many words a row of R40 holds. `ncard_matchesRow` ties it to the model. -/
def rowSize : Mnemonic → Nat
  | .add | .sub => 2 ^ 15
  | .addi | .jalr | .lw | .sw | .beq => 2 ^ 22
  | .lui | .auipc | .jal => 2 ^ 25

theorem ncard_matchesRow (m : Mnemonic) : {w : Word | matchesRow m w = true}.ncard = rowSize m := by
  simp only [matchesRow_iff]
  cases m with
  | add | sub => exact ncard_opcode_funct3_funct7 _ _ _
  | addi | jalr | lw | sw | beq => exact ncard_opcode_funct3 _ _
  | lui | auipc | jal => simpa [rowSize] using ncard_opcode_mem {_}

/-- All ten mnemonics. -/
def mnemonics : Finset Mnemonic :=
  {.add, .sub, .addi, .jalr, .lw, .sw, .beq, .lui, .auipc, .jal}

theorem mem_mnemonics (m : Mnemonic) : m ∈ mnemonics := by
  cases m <;> decide

theorem valid_eq_iUnion_rows :
    {w : Word | ∃ i, decode w = .ok i} = ⋃ m ∈ (mnemonics : Set Mnemonic), {w | matchesRow m w = true} := by
  ext w
  simp [decode_ok_iff_matchesRow, mem_mnemonics]

theorem rows_pairwiseDisjoint :
    (mnemonics : Set Mnemonic).PairwiseDisjoint fun m => {w : Word | matchesRow m w = true} :=
  fun _ _ _ _ hne => Set.disjoint_left.2 fun _ h h' => hne (matchesRow_unique h h')

theorem ncard_valid : {w : Word | ∃ i, decode w = .ok i}.ncard = 121700352 := by
  rw [valid_eq_iUnion_rows, mnemonics.finite_toSet.ncard_biUnion (fun _ _ => Set.toFinite _)
    rows_pairwiseDisjoint, finsum_mem_coe_finset]
  simp only [ncard_matchesRow]
  decide

/-! ### The two errors -/

theorem ncard_recognised : {w : Word | Field.opcode w ∈ recognisedOpcodes}.ncard = 9 * 2 ^ 25 := by
  have hcard : {op | op ∈ recognisedOpcodes}.ncard = 9 := by
    rw [← List.coe_toFinset, Set.ncard_coe_finset]
    decide
  have h := ncard_opcode_mem {op | op ∈ recognisedOpcodes}
  rwa [hcard] at h

theorem ncard_badOpcode : {w : Word | decode w = .error .badOpcode}.ncard = 3992977408 := by
  have hset : {w : Word | decode w = .error .badOpcode} =
      {w : Word | Field.opcode w ∈ recognisedOpcodes}ᶜ := by
    ext w
    exact decode_badOpcode_iff w
  rw [hset, Set.ncard_compl, ncard_recognised, card_bitVec]
  norm_num

theorem valid_subset_recognised :
    {w : Word | ∃ i, decode w = .ok i} ⊆ {w : Word | Field.opcode w ∈ recognisedOpcodes} := by
  rintro w ⟨i, h⟩
  by_contra hop
  rw [Set.mem_ofPred_eq, ← decode_badOpcode_iff, h] at hop
  cases hop

theorem ncard_badFunct : {w : Word | decode w = .error .badFunct}.ncard = 180289536 := by
  have hset : {w : Word | decode w = .error .badFunct} =
      {w : Word | Field.opcode w ∈ recognisedOpcodes} \ {w | ∃ i, decode w = .ok i} := by
    ext w
    simp only [Set.mem_ofPred_eq, Set.mem_sdiff, decode_badFunct_iff, ne_eq, decode_badOpcode_iff, not_not]
  rw [hset, Set.ncard_sdiff valid_subset_recognised, ncard_recognised, ncard_valid]
  norm_num

/-- Settles O29: the valid words are the disjoint rows; BadOpcode is every word outside the nine opcodes,
and BadFunct is every word of the nine that is not valid. -/
theorem wordClassesHaveTheListedSizes : Obligations.WordClassesHaveTheListedSizes :=
  ⟨ncard_valid, ncard_badFunct, ncard_badOpcode⟩

end Sys2Proof
end

section
/-! PROOFS. The field extractors as numbers and as a tiling of the word (40_extractors_and_immediate_codec.md
R60 to R66). -/

namespace Sys2Proof

/-! ### The extractors as numbers -/

/-- The bits `hi:lo` of a word are its number divided by `2 ^ lo`, cut to their width. -/
theorem toNat_extractLsb_eq_div (w : Word) (hi lo : Nat) :
    (w.extractLsb hi lo).toNat = w.toNat / 2 ^ lo % 2 ^ (hi - lo + 1) := by
  rw [BitVec.extractLsb_toNat, Nat.shiftRight_eq_div_pow]

theorem toNat_opcode (w : Word) : (Field.opcode w).toNat = w.toNat % 128 := by
  have h := toNat_extractLsb_eq_div w 6 0
  rwa [pow_zero, Nat.div_one] at h

theorem toNat_rd (w : Word) : (Field.rd w).toNat = w.toNat / 2 ^ 7 % 32 :=
  toNat_extractLsb_eq_div w 11 7

theorem toNat_funct3 (w : Word) : (Field.funct3 w).toNat = w.toNat / 2 ^ 12 % 8 :=
  toNat_extractLsb_eq_div w 14 12

theorem toNat_rs1 (w : Word) : (Field.rs1 w).toNat = w.toNat / 2 ^ 15 % 32 :=
  toNat_extractLsb_eq_div w 19 15

theorem toNat_rs2 (w : Word) : (Field.rs2 w).toNat = w.toNat / 2 ^ 20 % 32 :=
  toNat_extractLsb_eq_div w 24 20

/-- `funct7` ends at the top bit, so nothing is cut off above it. -/
theorem toNat_funct7 (w : Word) : (Field.funct7 w).toNat = w.toNat / 2 ^ 25 := by
  have hcut : (Field.funct7 w).toNat = w.toNat / 2 ^ 25 % 2 ^ 7 := toNat_extractLsb_eq_div w 31 25
  have htop : w.toNat / 2 ^ 25 < 2 ^ 7 := Nat.div_lt_of_lt_mul w.isLt
  rw [hcut, Nat.mod_eq_of_lt htop]

/-- Settles O1: each extractor is a division and a remainder; `funct7` needs no remainder. -/
theorem extractorsReadTheirFixedBits : Obligations.ExtractorsReadTheirFixedBits := fun w =>
  ⟨toNat_opcode w, toNat_rd w, toNat_funct3 w, toNat_rs1 w, toNat_rs2 w, toNat_funct7 w⟩

/-! ### The fields as a tiling of the word -/

/-- `packR` concatenates; the same word as an or of its parts at their positions (41_format_packers.md
R80). -/
theorem packR_eq_or (f7 op : BitVec 7) (f3 : BitVec 3) (rs2 rs1 rd : RegIdx) :
    packR f7 rs2 rs1 f3 rd op =
      f7.setWidth 32 <<< 25 ||| rs2.setWidth 32 <<< 20 ||| rs1.setWidth 32 <<< 15 |||
        f3.setWidth 32 <<< 12 ||| rd.setWidth 32 <<< 7 ||| op.setWidth 32 := by
  have hconcat : packR f7 rs2 rs1 f3 rd op = (f7 ++ rs2 ++ rs1 ++ f3 ++ rd ++ op).setWidth 32 :=
    (BitVec.setWidth_eq _).symm
  simp only [hconcat, BitVec.setWidth_append_eq_shiftLeft_setWidth_or, BitVec.shiftLeft_or_distrib,
    ← BitVec.shiftLeft_add]

/-- Settles O2: the six fields concatenate to the word (`packR_fields`), and a concatenation is an or of
shifted parts. -/
theorem extractedFieldsTileTheWord : Obligations.ExtractedFieldsTileTheWord := by
  intro w
  rw [← packR_eq_or, packR_fields]

end Sys2Proof
end

section
/-! PROOFS. Sign extension and the two operand checks (40_extractors_and_immediate_codec.md R67 to R73). -/

namespace Sys2Proof

/-! ### Sign extension -/

/-- The low `k + 1` bits read as two's complement: bit `k` weighs `-2 ^ k`. -/
theorem toInt_setWidth_succ (v : Word) (k : Nat) :
    (v.setWidth (k + 1)).toInt =
      ((v.toNat % 2 ^ k : Nat) : Int) - 2 ^ k * (if v.getLsbD k then 1 else 0) := by
  have hsplit : v.toNat % 2 ^ (k + 1) = v.toNat % 2 ^ k + 2 ^ k * (v.getLsbD k).toNat := by
    rw [Nat.mod_pow_succ, BitVec.getLsbD, Nat.toNat_testBit]
  have hmsb : (v.setWidth (k + 1)).msb = v.getLsbD k := by
    simp [BitVec.msb_setWidth]
  rw [BitVec.toInt_eq_msb_cond, BitVec.toNat_setWidth, hmsb, hsplit]
  cases v.getLsbD k
  · simp
  · simp only [if_true, Bool.toNat_true]
    push_cast
    ring

/-- Settles O3: the two shifts are the sign extension of the low bits (`signExtend_eq`), which keeps their
two's complement value. -/
theorem signExtendReadsTwosComplement : Obligations.SignExtendReadsTwosComplement := by
  intro value width domain
  obtain ⟨k, rfl⟩ : ∃ k, width = k + 1 := ⟨width - 1, by omega⟩
  rw [signExtend_eq, BitVec.toInt_signExtend_of_le domain.2, toInt_setWidth_succ, Nat.add_sub_cancel]

/-- Settles O4: the sign extension is one of the low bits alone. -/
theorem signExtendIgnoresHighBits : Obligations.SignExtendIgnoresHighBits := by
  intro value value' width domain hagree
  have hlow : value.setWidth width = value'.setWidth width :=
    BitVec.eq_of_getLsbD_eq fun k hk => by
      simp only [BitVec.getLsbD_setWidth, hagree k hk]
  rw [signExtend_eq, signExtend_eq, hlow]

/-- The sign extension is the representative of the value modulo `2 ^ n` nearest to 0. -/
theorem toInt_signExtend_eq_bmod (v : S32) (n : Nat) (h : 1 ≤ n ∧ n ≤ 32) :
    (signExtend v n h).toInt = v.toInt.bmod (2 ^ n) := by
  rw [signExtend_eq, BitVec.toInt_signExtend_of_le h.2, BitVec.toInt_setWidth, v.toInt_eq_toNat_bmod,
    Int.bmod_bmod_of_dvd (Nat.pow_dvd_pow 2 h.2)]

/-- A sign extension from `n` bits lies in the signed interval of `n` bits, and a value of that interval is
its own nearest representative. -/
theorem signExtend_eq_self_iff (v : S32) (n : Nat) (h : 1 ≤ n ∧ n ≤ 32) :
    signExtend v n h = v ↔ -(2 ^ (n - 1)) ≤ v.toInt ∧ v.toInt ≤ 2 ^ (n - 1) - 1 := by
  constructor
  · intro heq
    have hlow : v.toInt = (v.setWidth n).toInt := by
      rw [← BitVec.toInt_signExtend_of_le h.2, ← signExtend_eq v n h, heq]
    rw [hlow]
    exact ⟨BitVec.le_toInt _, Int.le_sub_one_of_lt BitVec.toInt_lt⟩
  · rintro ⟨hlo, hhi⟩
    obtain ⟨k, rfl⟩ : ∃ k, n = k + 1 := ⟨n - 1, by omega⟩
    rw [Nat.add_sub_cancel] at hlo hhi
    refine BitVec.eq_of_toInt_eq ?_
    rw [toInt_signExtend_eq_bmod]
    have hpow : ((2 ^ (k + 1) : Nat) : Int) = 2 ^ k * 2 := by rw [Nat.cast_pow, Nat.cast_two, pow_succ]
    exact Int.bmod_eq_of_le_mul_two (by omega) (by omega)

/-! ### The operand checks -/

/-- Settles O6: both sides say that the value is in the signed interval of the width. -/
theorem immRangeCheckPassesWhatSignExtendKeeps : Obligations.ImmRangeCheckPassesWhatSignExtendKeeps := by
  intro value bits domain
  rw [checkImmRange_eq, signExtend_eq_self_iff]
  simp

/-- Settles O5: the two clauses are the two branches of the check; they exclude each other. -/
theorem immRangeCheckIsTheSignedInterval : Obligations.ImmRangeCheckIsTheSignedInterval := by
  intro value bits domain
  rw [checkImmRange_eq]
  constructor
  · exact fun hin => if_pos hin
  · exact fun hout => if_neg (by omega)

/-- Settles O7: the two clauses are the two branches of the check. -/
theorem registerCheckPassesBelow32 : Obligations.RegisterCheckPassesBelow32 := by
  intro r
  rw [checkReg_eq]
  exact ⟨fun hlt => if_pos hlt, fun hge => if_neg (Nat.not_lt.2 hge)⟩

end Sys2Proof
end

section
/-! PROOFS. The packers and the assemblers as numbers, and packing as the inverse of reading
(41_format_packers.md R80 to R93). -/

namespace Sys2Proof

/-! ### The packers as sums -/

/-- The two parts of a concatenation share no bit, so their or is a sum. -/
theorem toNat_append_eq_add {n m : Nat} (x : BitVec n) (y : BitVec m) :
    (x ++ y).toNat = x.toNat * 2 ^ m + y.toNat := by
  rw [BitVec.toNat_append, ← Nat.shiftLeft_add_eq_or_of_lt y.isLt, Nat.shiftLeft_eq]

section Packers
variable (f7 op : BitVec 7) (f3 : BitVec 3) (rd rs1 rs2 : RegIdx) (imm : S32)

theorem toNat_packR :
    (packR f7 rs2 rs1 f3 rd op).toNat =
      f7.toNat * 2 ^ 25 + rs2.toNat * 2 ^ 20 + rs1.toNat * 2 ^ 15 + f3.toNat * 2 ^ 12 +
        rd.toNat * 2 ^ 7 + op.toNat := by
  simp only [packR, toNat_append_eq_add]
  omega

theorem toNat_packI :
    (packI imm rs1 f3 rd op).toNat =
      imm.toNat % 2 ^ 12 * 2 ^ 20 + rs1.toNat * 2 ^ 15 + f3.toNat * 2 ^ 12 + rd.toNat * 2 ^ 7 +
        op.toNat := by
  simp only [packI, toNat_append_eq_add, toNat_extractLsb_eq_div]
  omega

theorem toNat_packS :
    (packS imm rs2 rs1 f3 op).toNat =
      imm.toNat / 2 ^ 5 % 2 ^ 7 * 2 ^ 25 + rs2.toNat * 2 ^ 20 + rs1.toNat * 2 ^ 15 +
        f3.toNat * 2 ^ 12 + imm.toNat % 2 ^ 5 * 2 ^ 7 + op.toNat := by
  simp only [packS, toNat_append_eq_add, toNat_extractLsb_eq_div]
  omega

theorem toNat_packB :
    (packB imm rs2 rs1 f3 op).toNat =
      imm.toNat / 2 ^ 12 % 2 * 2 ^ 31 + imm.toNat / 2 ^ 5 % 2 ^ 6 * 2 ^ 25 + rs2.toNat * 2 ^ 20 +
        rs1.toNat * 2 ^ 15 + f3.toNat * 2 ^ 12 + imm.toNat / 2 % 2 ^ 4 * 2 ^ 8 +
        imm.toNat / 2 ^ 11 % 2 * 2 ^ 7 + op.toNat := by
  simp only [packB, toNat_append_eq_add, toNat_extractLsb_eq_div]
  omega

theorem toNat_packU :
    (packU imm rd op).toNat = imm.toNat % 2 ^ 20 * 2 ^ 12 + rd.toNat * 2 ^ 7 + op.toNat := by
  simp only [packU, toNat_append_eq_add, toNat_extractLsb_eq_div]
  omega

theorem toNat_packJ :
    (packJ imm rd op).toNat =
      imm.toNat / 2 ^ 20 % 2 * 2 ^ 31 + imm.toNat / 2 % 2 ^ 10 * 2 ^ 21 +
        imm.toNat / 2 ^ 11 % 2 * 2 ^ 20 + imm.toNat / 2 ^ 12 % 2 ^ 8 * 2 ^ 12 + rd.toNat * 2 ^ 7 +
        op.toNat := by
  simp only [packJ, toNat_append_eq_add, toNat_extractLsb_eq_div]
  omega

end Packers

/-- Settles O8: each packer is a concatenation, and a concatenation is a sum (`toNat_append_eq_add`). -/
theorem packersPlaceEveryPart : Obligations.PackersPlaceEveryPart :=
  fun f7 op f3 rd rs1 rs2 imm =>
    ⟨toNat_packR f7 op f3 rd rs1 rs2, toNat_packI op f3 rd rs1 imm, toNat_packS op f3 rs1 rs2 imm,
      toNat_packB op f3 rs1 rs2 imm, toNat_packU op rd imm, toNat_packJ op rd imm⟩

/-! ### The assemblers as signed numbers -/

/-- A field of `k + 1` bits read as a signed number: its top bit weighs `-2 ^ k`
(`signExtendReadsTwosComplement` for a field that fills the width). -/
theorem toInt_signExtend_succ {k : Nat} (x : BitVec (k + 1)) (hk : k + 1 ≤ 32) :
    (x.signExtend 32).toInt = (x.toNat % 2 ^ k : Nat) - 2 ^ k * (x.toNat / 2 ^ k : Nat) := by
  have hwide : (x.setWidth 32).toNat = x.toNat := BitVec.toNat_setWidth_of_le hk
  have htop : x.toNat / 2 ^ k = (x.getLsbD k).toNat := by
    have hlt : x.toNat / 2 ^ k < 2 := Nat.div_lt_of_lt_mul x.isLt
    rw [BitVec.getLsbD, Nat.toNat_testBit, Nat.mod_eq_of_lt hlt]
  have hbit : (x.setWidth 32).getLsbD k = x.getLsbD k := by
    rw [BitVec.getLsbD, BitVec.getLsbD, hwide]
  rw [← signExtend_setWidth x ⟨Nat.le_add_left 1 k, hk⟩, signExtendReadsTwosComplement,
    Nat.add_sub_cancel, hwide, hbit, htop]
  cases x.getLsbD k <;> rfl

section Assemblers
variable (w : Word)

theorem toInt_immI :
    (immI w).toInt = (w.toNat / 2 ^ 20 % 2 ^ 11 : Nat) - 2 ^ 11 * (w.toNat / 2 ^ 31 : Nat) := by
  have hw := w.isLt
  rw [immI_eq, toInt_signExtend_succ _ (by decide), toNat_extractLsb_eq_div]
  omega

theorem toInt_immS :
    (immS w).toInt =
      (w.toNat / 2 ^ 25 % 2 ^ 6 * 2 ^ 5 + w.toNat / 2 ^ 7 % 2 ^ 5 : Nat) -
        2 ^ 11 * (w.toNat / 2 ^ 31 : Nat) := by
  have hw := w.isLt
  -- The sign is the top bit of the upper part, which this format reads in one piece.
  have hsign : w.toNat / 2 ^ 25 % 2 ^ 7 = w.toNat / 2 ^ 31 * 2 ^ 6 + w.toNat / 2 ^ 25 % 2 ^ 6 := by omega
  rw [immS_eq, toInt_signExtend_succ _ (by decide)]
  simp only [toNat_append_eq_add, toNat_extractLsb_eq_div]
  omega

theorem toInt_immB :
    (immB w).toInt =
      (w.toNat / 2 ^ 7 % 2 * 2 ^ 11 + w.toNat / 2 ^ 25 % 2 ^ 6 * 2 ^ 5 + w.toNat / 2 ^ 8 % 2 ^ 4 * 2 : Nat) -
        2 ^ 12 * (w.toNat / 2 ^ 31 : Nat) := by
  have hw := w.isLt
  rw [immB_eq, toInt_signExtend_succ _ (by decide)]
  simp only [toNat_append_eq_add, toNat_extractLsb_eq_div, BitVec.toNat_ofNat]
  omega

theorem toInt_immU :
    (immU w).toInt = (w.toNat / 2 ^ 12 % 2 ^ 19 : Nat) - 2 ^ 19 * (w.toNat / 2 ^ 31 : Nat) := by
  have hw := w.isLt
  rw [immU_eq, toInt_signExtend_succ _ (by decide), toNat_extractLsb_eq_div]
  omega

theorem toInt_immJ :
    (immJ w).toInt =
      (w.toNat / 2 ^ 12 % 2 ^ 8 * 2 ^ 12 + w.toNat / 2 ^ 20 % 2 * 2 ^ 11 +
          w.toNat / 2 ^ 21 % 2 ^ 10 * 2 : Nat) -
        2 ^ 20 * (w.toNat / 2 ^ 31 : Nat) := by
  have hw := w.isLt
  rw [immJ_eq, toInt_signExtend_succ _ (by decide)]
  simp only [toNat_append_eq_add, toNat_extractLsb_eq_div, BitVec.toNat_ofNat]
  omega

/-- Every part of the B immediate has an even weight. -/
theorem even_toInt_immB : (immB w).toInt % 2 = 0 := by
  rw [toInt_immB]
  omega

/-- Every part of the J immediate has an even weight. -/
theorem even_toInt_immJ : (immJ w).toInt % 2 = 0 := by
  rw [toInt_immJ]
  omega

end Assemblers

/-- Settles O9: each of the four is a sign extension of a concatenation of word bits, so a sum in which the
top bit weighs negative. -/
theorem assemblersReadSignedImmediates : Obligations.AssemblersReadSignedImmediates := fun w =>
  ⟨toInt_immI w, toInt_immS w, toInt_immB w, toInt_immJ w, even_toInt_immB w, even_toInt_immJ w⟩

/-- Settles O10: the arithmetic shift is the sign extension of word bits 31:12 (`immU_eq`). -/
theorem upperImmediateIsTheSignedField : Obligations.UpperImmediateIsTheSignedField := toInt_immU

/-! ### Reading what was packed -/

section Accepted
variable {imm : S32}

theorem signExtend_of_immFits12 (h : immFits12 imm = true) : signExtend imm 12 = imm :=
  (signExtend_eq_self_iff imm 12 _).2 (of_decide_eq_true h)

theorem signExtend_of_immFits20 (h : immFits20 imm = true) : signExtend imm 20 = imm :=
  (signExtend_eq_self_iff imm 20 _).2 (of_decide_eq_true h)

theorem getLsbD_zero_of_immFitsBranch (h : immFitsBranch imm = true) : imm.getLsbD 0 = false := by
  rw [immFitsBranch, Bool.and_eq_true, Bool.not_eq_true'] at h
  exact h.2

theorem getLsbD_zero_of_immFitsJump (h : immFitsJump imm = true) : imm.getLsbD 0 = false := by
  rw [immFitsJump, Bool.and_eq_true, Bool.not_eq_true'] at h
  exact h.2

/-- The largest accepted value is even, so one below the top of the signed interval. -/
theorem signExtend_of_immFitsBranch (h : immFitsBranch imm = true) : signExtend imm 13 = imm := by
  rw [immFitsBranch, Bool.and_eq_true, decide_eq_true_eq] at h
  obtain ⟨⟨hlo, hhi⟩, -⟩ := h
  exact (signExtend_eq_self_iff imm 13 _).2 ⟨hlo, hhi.trans (by decide)⟩

/-- The largest accepted value is even, so one below the top of the signed interval. -/
theorem signExtend_of_immFitsJump (h : immFitsJump imm = true) : signExtend imm 21 = imm := by
  rw [immFitsJump, Bool.and_eq_true, decide_eq_true_eq] at h
  obtain ⟨⟨hlo, hhi⟩, -⟩ := h
  exact (signExtend_eq_self_iff imm 21 _).2 ⟨hlo, hhi.trans (by decide)⟩

end Accepted

/-- Settles O11: an assembler reads the sign extension of the packed immediate's low bits (`immI_packI` and
the like), and that leaves an accepted immediate alone. -/
theorem packedImmediatesReadBack : Obligations.PackedImmediatesReadBack := by
  intro op f3 rd rs1 rs2 imm
  refine ⟨fun h => ?_, fun h => ?_, fun h => ?_, fun h => ?_, fun h => ?_⟩
  · rw [immI_packI, signExtend_of_immFits12 h]
  · rw [immS_packS, signExtend_of_immFits12 h]
  · rw [immB_packB _ _ _ _ _ (getLsbD_zero_of_immFitsBranch h), signExtend_of_immFitsBranch h]
  · rw [immU_packU, signExtend_of_immFits20 h]
  · rw [immJ_packJ _ _ _ (getLsbD_zero_of_immFitsJump h), signExtend_of_immFitsJump h]

/-! ### Packing what was read

`packR_fields` for the formats with an immediate: sign extension keeps the bits of the format
(`immI_eq` and the like), so bit `i` of the packed word comes from bit `i` of the word that was read. -/

section Fields
variable (w : Word)

theorem packI_fields :
    packI (immI w) (Field.rs1 w) (Field.funct3 w) (Field.rd w) (Field.opcode w) = w := by
  refine BitVec.eq_of_getLsbD_eq fun i hi => ?_
  simp only [packI, immI_eq, Field.rs1, Field.funct3, Field.rd, Field.opcode, BitVec.getLsbD_append,
    BitVec.getLsbD_extractLsb, BitVec.getLsbD_signExtend]
  interval_cases i <;> simp

theorem packS_fields :
    packS (immS w) (Field.rs2 w) (Field.rs1 w) (Field.funct3 w) (Field.opcode w) = w := by
  refine BitVec.eq_of_getLsbD_eq fun i hi => ?_
  simp only [packS, immS_eq, Field.rs2, Field.rs1, Field.funct3, Field.opcode, BitVec.getLsbD_append,
    BitVec.getLsbD_extractLsb, BitVec.getLsbD_signExtend]
  interval_cases i <;> simp

theorem packB_fields :
    packB (immB w) (Field.rs2 w) (Field.rs1 w) (Field.funct3 w) (Field.opcode w) = w := by
  refine BitVec.eq_of_getLsbD_eq fun i hi => ?_
  simp only [packB, immB_eq, Field.rs2, Field.rs1, Field.funct3, Field.opcode, BitVec.getLsbD_append,
    BitVec.getLsbD_extractLsb, BitVec.getLsbD_signExtend]
  interval_cases i <;> simp

theorem packU_fields : packU (immU w) (Field.rd w) (Field.opcode w) = w := by
  refine BitVec.eq_of_getLsbD_eq fun i hi => ?_
  simp only [packU, immU_eq, Field.rd, Field.opcode, BitVec.getLsbD_append, BitVec.getLsbD_extractLsb,
    BitVec.getLsbD_signExtend]
  interval_cases i <;> simp

theorem packJ_fields : packJ (immJ w) (Field.rd w) (Field.opcode w) = w := by
  refine BitVec.eq_of_getLsbD_eq fun i hi => ?_
  simp only [packJ, immJ_eq, Field.rd, Field.opcode, BitVec.getLsbD_append, BitVec.getLsbD_extractLsb,
    BitVec.getLsbD_signExtend]
  interval_cases i <;> simp

end Fields

/-- Settles O12: bit by bit, what a packer puts at a place is what was read from that place. -/
theorem unpackedFieldsPackAgain : Obligations.UnpackedFieldsPackAgain := fun w =>
  ⟨packR_fields w, packI_fields w, packS_fields w, packB_fields w, packU_fields w, packJ_fields w⟩

end Sys2Proof
end

section
/-! PROOFS. The accepted immediates as intervals and the words of the entry points as numbers (42_encoder.md
R102 to R111). -/

namespace Sys2Proof

/-! ### The accepted immediates as intervals (10_state.md R16) -/

theorem immFits12_iff (imm : S32) : immFits12 imm = true ↔ -2048 ≤ imm.toInt ∧ imm.toInt ≤ 2047 :=
  decide_eq_true_iff

theorem immFits20_iff (imm : S32) : immFits20 imm = true ↔ -524288 ≤ imm.toInt ∧ imm.toInt ≤ 524287 :=
  decide_eq_true_iff

theorem immFitsBranch_iff (imm : S32) :
    immFitsBranch imm = true ↔ -4096 ≤ imm.toInt ∧ imm.toInt ≤ 4094 ∧ imm.toInt % 2 = 0 := by
  rw [immFitsBranch, Bool.and_eq_true, decide_eq_true_iff, Bool.not_eq_true', getLsbD_zero_eq_false_iff,
    and_assoc]

theorem immFitsJump_iff (imm : S32) :
    immFitsJump imm = true ↔ -1048576 ≤ imm.toInt ∧ imm.toInt ≤ 1048574 ∧ imm.toInt % 2 = 0 := by
  rw [immFitsJump, Bool.and_eq_true, decide_eq_true_iff, Bool.not_eq_true', getLsbD_zero_eq_false_iff,
    and_assoc]

/-! ### The packers over register operands -/

/-- A word is given by its number. -/
theorem eq_ofNat_of_toNat_eq {w : Word} {n : Nat} (h : w.toNat = n) : w = BitVec.ofNat 32 n := by
  rw [← h, BitVec.ofNat_toNat, BitVec.setWidth_eq]

/-- Below 32 nothing of a register operand is cut off. -/
theorem toNat_regIndex {r : RegArg} (h : r.toNat < 32) : (regIndex r).toNat = r.toNat := by
  rw [regIndex, BitVec.extractLsb_toNat, Nat.shiftRight_zero, Nat.mod_eq_of_lt h]

section Packers
variable (f7 op : BitVec 7) (f3 : BitVec 3) (imm : S32) {rd rs1 rs2 : RegArg}

theorem packR_regIndex (hrd : rd.toNat < 32) (hrs1 : rs1.toNat < 32) (hrs2 : rs2.toNat < 32) :
    packR f7 (regIndex rs2) (regIndex rs1) f3 (regIndex rd) op =
      BitVec.ofNat 32 (f7.toNat * 2 ^ 25 + rs2.toNat * 2 ^ 20 + rs1.toNat * 2 ^ 15 + f3.toNat * 2 ^ 12 +
        rd.toNat * 2 ^ 7 + op.toNat) :=
  eq_ofNat_of_toNat_eq (by
    rw [toNat_packR, toNat_regIndex hrd, toNat_regIndex hrs1, toNat_regIndex hrs2])

theorem packI_regIndex (hrd : rd.toNat < 32) (hrs1 : rs1.toNat < 32) :
    packI imm (regIndex rs1) f3 (regIndex rd) op =
      BitVec.ofNat 32 (imm.toNat % 2 ^ 12 * 2 ^ 20 + rs1.toNat * 2 ^ 15 + f3.toNat * 2 ^ 12 +
        rd.toNat * 2 ^ 7 + op.toNat) :=
  eq_ofNat_of_toNat_eq (by rw [toNat_packI, toNat_regIndex hrd, toNat_regIndex hrs1])

theorem packS_regIndex (hrs1 : rs1.toNat < 32) (hrs2 : rs2.toNat < 32) :
    packS imm (regIndex rs2) (regIndex rs1) f3 op =
      BitVec.ofNat 32 (imm.toNat / 2 ^ 5 % 2 ^ 7 * 2 ^ 25 + rs2.toNat * 2 ^ 20 + rs1.toNat * 2 ^ 15 +
        f3.toNat * 2 ^ 12 + imm.toNat % 2 ^ 5 * 2 ^ 7 + op.toNat) :=
  eq_ofNat_of_toNat_eq (by rw [toNat_packS, toNat_regIndex hrs1, toNat_regIndex hrs2])

theorem packB_regIndex (hrs1 : rs1.toNat < 32) (hrs2 : rs2.toNat < 32) :
    packB imm (regIndex rs2) (regIndex rs1) f3 op =
      BitVec.ofNat 32 (imm.toNat / 2 ^ 12 % 2 * 2 ^ 31 + imm.toNat / 2 ^ 5 % 2 ^ 6 * 2 ^ 25 +
        rs2.toNat * 2 ^ 20 + rs1.toNat * 2 ^ 15 + f3.toNat * 2 ^ 12 + imm.toNat / 2 % 2 ^ 4 * 2 ^ 8 +
        imm.toNat / 2 ^ 11 % 2 * 2 ^ 7 + op.toNat) :=
  eq_ofNat_of_toNat_eq (by rw [toNat_packB, toNat_regIndex hrs1, toNat_regIndex hrs2])

theorem packU_regIndex (hrd : rd.toNat < 32) :
    packU imm (regIndex rd) op =
      BitVec.ofNat 32 (imm.toNat % 2 ^ 20 * 2 ^ 12 + rd.toNat * 2 ^ 7 + op.toNat) :=
  eq_ofNat_of_toNat_eq (by rw [toNat_packU, toNat_regIndex hrd])

theorem packJ_regIndex (hrd : rd.toNat < 32) :
    packJ imm (regIndex rd) op =
      BitVec.ofNat 32 (imm.toNat / 2 ^ 20 % 2 * 2 ^ 31 + imm.toNat / 2 % 2 ^ 10 * 2 ^ 21 +
        imm.toNat / 2 ^ 11 % 2 * 2 ^ 20 + imm.toNat / 2 ^ 12 % 2 ^ 8 * 2 ^ 12 + rd.toNat * 2 ^ 7 +
        op.toNat) :=
  eq_ofNat_of_toNat_eq (by rw [toNat_packJ, toNat_regIndex hrd])

end Packers

/-! ### Format R (42_encoder.md R102, R103) -/

/-- Settles O15: the word is `packR`'s; funct7 and funct3 are 0. -/
theorem encodeAddGivesItsWord : Obligations.EncodeAddGivesItsWord := by
  intro rd rs1 rs2
  refine ⟨fun h => ?_, fun h => ?_⟩
  · obtain ⟨hrd, hrs1, hrs2⟩ := h
    rw [encodeAdd_eq, if_pos ⟨hrd, hrs1, hrs2⟩, packR_regIndex _ _ _ hrd hrs1 hrs2]
    simp [funct7Add, funct3Op, opcodeOp]
  · rw [encodeAdd_eq, if_neg (by omega)]

/-- Add and Sub differ in funct7 only, and their funct7 in the bit that is bit 30 of the word. -/
theorem packR_funct7Sub (rd rs1 rs2 : RegIdx) (f3 : BitVec 3) (op : BitVec 7) :
    packR funct7Sub rs2 rs1 f3 rd op = packR funct7Add rs2 rs1 f3 rd op ^^^ 0x40000000#32 := by
  have hbit : 0x40000000#32 = packR funct7Sub 0 0 0 0 0 := by decide
  rw [hbit]
  refine BitVec.eq_of_getLsbD_eq fun i hi => ?_
  simp only [packR, funct7Add, BitVec.getLsbD_xor, BitVec.getLsbD_append, BitVec.ofNat_eq_ofNat,
    BitVec.getLsbD_zero]
  split_ifs <;> simp

/-- Settles O16: the word is `packR`'s with funct7 0x20, so Add's with bit 30 flipped
(`packR_funct7Sub`). -/
theorem encodeSubGivesItsWord : Obligations.EncodeSubGivesItsWord := by
  intro rd rs1 rs2
  refine ⟨fun h => ?_, fun h => ?_, fun w h => ?_⟩
  · obtain ⟨hrd, hrs1, hrs2⟩ := h
    rw [encodeSub_eq, if_pos ⟨hrd, hrs1, hrs2⟩, packR_regIndex _ _ _ hrd hrs1 hrs2]
    simp [funct7Sub, funct3Op, opcodeOp]
  · rw [encodeSub_eq, if_neg (by omega)]
  · rw [encodeAdd_eq] at h
    split_ifs at h with hregs
    rw [encodeSub_eq, if_pos hregs, packR_funct7Sub, Except.ok.inj h]

/-! ### Formats I, S and B (42_encoder.md R104 to R108) -/

/-- Settles O17: the three words are `packI`'s, with the constants of their rows. -/
theorem encodeAddiJalrLwGiveTheirWords : Obligations.EncodeAddiJalrLwGiveTheirWords := by
  intro rd rs1 imm hrd hrs1 hlo hhi
  have hregs : rd.toNat < 32 ∧ rs1.toNat < 32 := ⟨hrd, hrs1⟩
  have himm : immFits12 imm = true := (immFits12_iff imm).2 ⟨hlo, hhi⟩
  refine ⟨?_, ?_, ?_⟩
  · rw [encodeAddi_eq, if_pos hregs, if_pos himm, packI_regIndex _ _ _ hrd hrs1]
    simp [funct3Addi, opcodeOpImm]
  · rw [encodeJalr_eq, if_pos hregs, if_pos himm, packI_regIndex _ _ _ hrd hrs1]
    simp [funct3Jalr, opcodeJalr]
  · rw [encodeLw_eq, if_pos hregs, if_pos himm, packI_regIndex _ _ _ hrd hrs1]
    simp [funct3Lw, opcodeLoad]

/-- Settles O18: the words are `packS`'s and `packB`'s, with the constants of their rows. -/
theorem encodeSwBeqGiveTheirWords : Obligations.EncodeSwBeqGiveTheirWords := by
  intro rs1 rs2 imm hrs1 hrs2
  have hregs : rs1.toNat < 32 ∧ rs2.toNat < 32 := ⟨hrs1, hrs2⟩
  refine ⟨fun hlo hhi => ?_, fun hlo hhi heven => ?_⟩
  · have himm : immFits12 imm = true := (immFits12_iff imm).2 ⟨hlo, hhi⟩
    rw [encodeSw_eq, if_pos hregs, if_pos himm, packS_regIndex _ _ _ hrs1 hrs2]
    simp [funct3Sw, opcodeStore]
  · have himm : immFitsBranch imm = true := (immFitsBranch_iff imm).2 ⟨hlo, hhi, heven⟩
    rw [encodeBeq_eq, if_pos hregs, if_pos himm, packB_regIndex _ _ _ hrs1 hrs2]
    simp [funct3Beq, opcodeBranch]

/-! ### Formats U and J (42_encoder.md R109 to R111) -/

/-- Settles O19: the words are `packU`'s and `packJ`'s, with the opcodes of their rows. -/
theorem encodeLuiAuipcJalGiveTheirWords : Obligations.EncodeLuiAuipcJalGiveTheirWords := by
  intro rd imm hrd
  refine ⟨fun hlo hhi => ⟨?_, ?_⟩, fun hlo hhi heven => ?_⟩
  · rw [encodeLui_eq, if_pos hrd, if_pos ((immFits20_iff imm).2 ⟨hlo, hhi⟩), packU_regIndex _ _ hrd]
    rfl
  · rw [encodeAuipc_eq, if_pos hrd, if_pos ((immFits20_iff imm).2 ⟨hlo, hhi⟩), packU_regIndex _ _ hrd]
    rfl
  · rw [encodeJal_eq, if_pos hrd, if_pos ((immFitsJump_iff imm).2 ⟨hlo, hhi, heven⟩),
      packJ_regIndex _ _ hrd]
    rfl

end Sys2Proof
end

section
/-! PROOFS. What the ten entry points answer, over one operand bundle: the status of every call, and the word
as the packed form of the operands' record, which the decoder reads back (42_encoder.md R113 to R115). -/

namespace Sys2Proof.Machine

/-! ### The operands of a call as a record -/

/-- The record a call asks for: the operands its mnemonic takes, each register cut to its index.
`encodeBy_eq` ties it to the model. -/
def operandRecord (m : Mnemonic) (rd rs1 rs2 : RegArg) (imm : S32) : Instr :=
  match m with
  | .add => .add (regIndex rd) (regIndex rs1) (regIndex rs2)
  | .sub => .sub (regIndex rd) (regIndex rs1) (regIndex rs2)
  | .addi => .addi (regIndex rd) (regIndex rs1) imm
  | .jalr => .jalr (regIndex rd) (regIndex rs1) imm
  | .lw => .lw (regIndex rd) (regIndex rs1) imm
  | .sw => .sw (regIndex rs1) (regIndex rs2) imm
  | .beq => .beq (regIndex rs1) (regIndex rs2) imm
  | .lui => .lui (regIndex rd) imm
  | .auipc => .auipc (regIndex rd) imm
  | .jal => .jal (regIndex rd) imm

@[simp] theorem mnemonic_operandRecord (m : Mnemonic) (rd rs1 rs2 : RegArg) (imm : S32) :
    (operandRecord m rd rs1 rs2 imm).mnemonic = m := by
  cases m <;> rfl

@[simp] theorem wellFormed_operandRecord (m : Mnemonic) (rd rs1 rs2 : RegArg) (imm : S32) :
    (operandRecord m rd rs1 rs2 imm).wellFormed = immAccepted m imm := by
  cases m <;> rfl

/-- The word of a record: its fields and its row's constants in its format (30_encoding.md R39).
`encodeBy_eq` ties it to the model. -/
def packRecord : Instr → Word
  | .add rd rs1 rs2 => packR funct7Add rs2 rs1 funct3Op rd opcodeOp
  | .sub rd rs1 rs2 => packR funct7Sub rs2 rs1 funct3Op rd opcodeOp
  | .addi rd rs1 imm => packI imm rs1 funct3Addi rd opcodeOpImm
  | .jalr rd rs1 imm => packI imm rs1 funct3Jalr rd opcodeJalr
  | .lw rd rs1 imm => packI imm rs1 funct3Lw rd opcodeLoad
  | .sw rs1 rs2 imm => packS imm rs2 rs1 funct3Sw opcodeStore
  | .beq rs1 rs2 imm => packB imm rs2 rs1 funct3Beq opcodeBranch
  | .lui rd imm => packU imm rd opcodeLui
  | .auipc rd imm => packU imm rd opcodeAuipc
  | .jal rd imm => packJ imm rd opcodeJal

/-! ### The answer of every call (42_encoder.md R113) -/

/-- Every register operand the mnemonic takes is below 32 (60_exceptions.md R171). -/
def RegsInRange (m : Mnemonic) (rd rs1 rs2 : RegArg) : Prop :=
  (takesRd m = true → rd.toNat < 32) ∧ (takesRs1 m = true → rs1.toNat < 32) ∧
    (takesRs2 m = true → rs2.toNat < 32)

section Calls
variable {m : Mnemonic} {rd rs1 rs2 : RegArg} {imm : S32}

theorem not_regsInRange_iff :
    ¬RegsInRange m rd rs1 rs2 ↔
      takesRd m = true ∧ 32 ≤ rd.toNat ∨ takesRs1 m = true ∧ 32 ≤ rs1.toNat ∨
        takesRs2 m = true ∧ 32 ≤ rs2.toNat := by
  simp only [RegsInRange, not_and_or, Classical.not_imp, not_lt]

open Classical in
/-- The entry points test the registers they take, then the immediate, then pack (`encodeAdd_eq` and the
like). The `congr` closes what is left: the same condition with two decision procedures. -/
theorem encodeBy_eq :
    encodeBy m rd rs1 rs2 imm =
      if RegsInRange m rd rs1 rs2 then
        if immAccepted m imm then .ok (packRecord (operandRecord m rd rs1 rs2 imm))
        else .error .immOutOfRange
      else .error .badReg := by
  cases m <;>
    simp only [encodeBy, RegsInRange, takesRd, takesRs1, takesRs2, immAccepted, operandRecord, packRecord,
      encodeAdd_eq, encodeSub_eq, encodeAddi_eq, encodeJalr_eq, encodeLw_eq, encodeSw_eq, encodeBeq_eq,
      encodeLui_eq, encodeAuipc_eq, encodeJal_eq, Bool.false_eq_true, true_imp_iff, false_imp_iff, true_and,
      and_true, if_true] <;>
    congr

/-- Everything a call that answers a word can be. -/
theorem encodeBy_eq_ok_iff {w : Word} :
    encodeBy m rd rs1 rs2 imm = .ok w ↔
      RegsInRange m rd rs1 rs2 ∧ immAccepted m imm = true ∧
        w = packRecord (operandRecord m rd rs1 rs2 imm) := by
  by_cases hr : RegsInRange m rd rs1 rs2
  · rw [encodeBy_eq, if_pos hr]
    cases hi : immAccepted m imm <;> simp [hr, eq_comm]
  · rw [encodeBy_eq, if_neg hr]
    simp [hr]

theorem exists_encodeBy_eq_ok_iff (h : RegsInRange m rd rs1 rs2) :
    (∃ w, encodeBy m rd rs1 rs2 imm = .ok w) ↔ immAccepted m imm = true := by
  simp only [encodeBy_eq_ok_iff, h, true_and, exists_and_left, exists_eq, and_true]

end Calls

/-- Settles O13: a bad register, an immediate not accepted and a word are the three answers of
`encodeBy_eq`. -/
theorem encodeStatusIsTheResultTable : Obligations.EncodeStatusIsTheResultTable := by
  intro m rd rs1 rs2 imm
  refine ⟨fun h => ?_, fun h1 h2 h3 => ⟨fun hi => ?_, fun hi => ?_⟩⟩
  · rw [encodeBy_eq, if_neg (not_regsInRange_iff.2 h)]
  · rw [encodeBy_eq, if_pos ⟨h1, h2, h3⟩, hi, if_neg Bool.false_ne_true]
  · exact (exists_encodeBy_eq_ok_iff ⟨h1, h2, h3⟩).2 hi

/-! ### The accepted immediates (42_encoder.md R114) -/

/-- Settles O14: with registers in range a call answers a word exactly when its immediate is accepted
(`exists_encodeBy_eq_ok_iff`); an operand a call does not take is 0 in the bundle. -/
theorem encodersAcceptExactlyTheListedBounds : Obligations.EncodersAcceptExactlyTheListedBounds := by
  intro a b imm ha hb
  have range (m : Mnemonic) : RegsInRange m a b 0 := ⟨fun _ => ha, fun _ => hb, fun _ => by decide⟩
  have rangeSB (m : Mnemonic) : RegsInRange m 0 a b := ⟨fun _ => by decide, fun _ => ha, fun _ => hb⟩
  exact ⟨(exists_encodeBy_eq_ok_iff (range .addi)).trans (immFits12_iff imm),
    (exists_encodeBy_eq_ok_iff (range .jalr)).trans (immFits12_iff imm),
    (exists_encodeBy_eq_ok_iff (range .lw)).trans (immFits12_iff imm),
    (exists_encodeBy_eq_ok_iff (rangeSB .sw)).trans (immFits12_iff imm),
    (exists_encodeBy_eq_ok_iff (rangeSB .beq)).trans (immFitsBranch_iff imm),
    (exists_encodeBy_eq_ok_iff (range .lui)).trans (immFits20_iff imm),
    (exists_encodeBy_eq_ok_iff (range .auipc)).trans (immFits20_iff imm),
    (exists_encodeBy_eq_ok_iff (range .jal)).trans (immFitsJump_iff imm)⟩

/-! ### Equal words, equal operands (42_encoder.md R115) -/

/-- The packed constants are those of the record's own row. -/
theorem matchesRow_packRecord (i : Instr) : matchesRow i.mnemonic (packRecord i) = true := by
  rw [matchesRow_iff]
  cases i <;> simp [Instr.mnemonic, packRecord]

/-- An accepted immediate survives packing (`signExtend_of_immFits12` and the like). -/
theorem rowRecord_packRecord {i : Instr} (h : i.wellFormed = true) :
    rowRecord i.mnemonic (packRecord i) = i := by
  cases i with
  | add | sub => simp [Instr.mnemonic, packRecord, rowRecord]
  | addi | jalr | lw =>
    simp [Instr.mnemonic, packRecord, rowRecord, immI_packI, signExtend_of_immFits12 h]
  | sw => simp [Instr.mnemonic, packRecord, rowRecord, immS_packS, signExtend_of_immFits12 h]
  | beq =>
    simp [Instr.mnemonic, packRecord, rowRecord, immB_packB _ _ _ _ _ (getLsbD_zero_of_immFitsBranch h),
      signExtend_of_immFitsBranch h]
  | lui | auipc => simp [Instr.mnemonic, packRecord, rowRecord, immU_packU, signExtend_of_immFits20 h]
  | jal =>
    simp [Instr.mnemonic, packRecord, rowRecord, immJ_packJ _ _ _ (getLsbD_zero_of_immFitsJump h),
      signExtend_of_immFitsJump h]

theorem decode_packRecord {i : Instr} (h : i.wellFormed = true) : decode (packRecord i) = .ok i := by
  rw [decode_of_matchesRow (matchesRow_packRecord i), rowRecord_packRecord h]

/-- The decoder reads an encoded word back as the record the call asked for. -/
theorem decode_of_encodeBy {m : Mnemonic} {rd rs1 rs2 : RegArg} {imm : S32} {w : Word}
    (h : encodeBy m rd rs1 rs2 imm = .ok w) : decode w = .ok (operandRecord m rd rs1 rs2 imm) := by
  obtain ⟨-, himm, rfl⟩ := encodeBy_eq_ok_iff.1 h
  exact decode_packRecord (by rwa [wellFormed_operandRecord])

theorem eq_of_regIndex_eq {r r' : RegArg} (h : r.toNat < 32) (h' : r'.toNat < 32)
    (heq : regIndex r = regIndex r') : r = r' := by
  rw [← regArg_regIndex h, ← regArg_regIndex h', heq]

/-- One mnemonic's record holds every operand the mnemonic takes. -/
theorem operands_of_operandRecord_eq {m : Mnemonic} {rd rs1 rs2 rd' rs1' rs2' : RegArg} {imm imm' : S32}
    (h : operandRecord m rd rs1 rs2 imm = operandRecord m rd' rs1' rs2' imm') :
    (takesRd m = true → regIndex rd = regIndex rd') ∧ (takesRs1 m = true → regIndex rs1 = regIndex rs1') ∧
      (takesRs2 m = true → regIndex rs2 = regIndex rs2') ∧ (takesImm m = true → imm = imm') := by
  cases m <;> simpa [operandRecord, takesRd, takesRs1, takesRs2, takesImm] using h

/-- Settles O20: the decoder answers one record for the common word, so both calls ask for the same record
(`decode_of_encodeBy`). -/
theorem encodeIsInjective : Obligations.EncodeIsInjective := by
  intro m m' rd rs1 rs2 rd' rs1' rs2' imm imm' w h h'
  have heq : operandRecord m rd rs1 rs2 imm = operandRecord m' rd' rs1' rs2' imm' :=
    Except.ok.inj ((decode_of_encodeBy h).symm.trans (decode_of_encodeBy h'))
  obtain rfl : m = m' := by simpa using congrArg Instr.mnemonic heq
  obtain ⟨hrd, hrs1, hrs2, himm⟩ := operands_of_operandRecord_eq heq
  obtain ⟨⟨lrd, lrs1, lrs2⟩, -, -⟩ := encodeBy_eq_ok_iff.1 h
  obtain ⟨⟨lrd', lrs1', lrs2'⟩, -, -⟩ := encodeBy_eq_ok_iff.1 h'
  exact ⟨rfl, fun t => eq_of_regIndex_eq (lrd t) (lrd' t) (hrd t),
    fun t => eq_of_regIndex_eq (lrs1 t) (lrs1' t) (hrs1 t),
    fun t => eq_of_regIndex_eq (lrs2 t) (lrs2' t) (hrs2 t), himm⟩

end Sys2Proof.Machine
end

section
/-! PROOFS. The rows of the opcode table as the decoder reads them, and the two round trips: decoding and
encoding are inverse relations between words and records (30_encoding.md R40; 43_decoder.md R124 to R138). -/

namespace Sys2Proof

open Sys2Proof.Machine

/-! ### The words of a row (43_decoder.md R124 to R134) -/

/-- Settles O22: the decoder's record is that of a row the word is in, and rows are disjoint. -/
theorem decodedVariantIsTheOnlyMatchingRow : Obligations.DecodedVariantIsTheOnlyMatchingRow :=
  fun _ _ h =>
    ⟨matchesRow_of_decode h, fun _ hm => matchesRow_unique hm (matchesRow_of_decode h)⟩

/-- `decode_of_matchesRow` with the row written as its mask and match. -/
theorem decode_of_mask (m : Mnemonic) {w : Word} (h : w &&& maskWord m = matchWord m) :
    decode w = .ok (rowRecord m w) :=
  decode_of_matchesRow (beq_iff_eq.2 h)

/-- Settles O23: the mask and match are those of Add's row. -/
theorem addWordsDecodeToAdd : Obligations.AddWordsDecodeToAdd :=
  fun _ h => decode_of_mask .add h

/-- Settles O24: each word is in its row, and the I immediate is a sign extension (`immI_eq`). -/
theorem subAddiJalrLwWordsDecode : Obligations.SubAddiJalrLwWordsDecode := by
  intro w
  rw [← immI_eq]
  exact ⟨decode_of_mask .sub, decode_of_mask .addi, decode_of_mask .jalr, decode_of_mask .lw⟩

/-- Settles O25: each word is in its row, and each format's immediate is a sign extension of the bits it is
assembled from (`immS_eq` and the like). -/
theorem swBeqLuiAuipcJalWordsDecode : Obligations.SwBeqLuiAuipcJalWordsDecode := by
  intro w
  rw [← immS_eq, ← immB_eq, ← immU_eq, ← immJ_eq]
  exact ⟨decode_of_mask .sw, decode_of_mask .beq, decode_of_mask .lui, decode_of_mask .auipc,
    decode_of_mask .jal⟩

/-! ### Decoded records are well-formed (43_decoder.md R136) -/

theorem eq_rowRecord_of_decode {w : Word} {i : Instr} (h : decode w = .ok i) :
    i = rowRecord i.mnemonic w :=
  Except.ok.inj (h.symm.trans (decode_of_matchesRow (matchesRow_of_decode h)))

section Accepted
variable (w : Word)

theorem immFits12_immI : immFits12 (immI w) = true := by
  have hw := w.isLt
  rw [immFits12_iff, toInt_immI]
  omega

theorem immFits12_immS : immFits12 (immS w) = true := by
  have hw := w.isLt
  rw [immFits12_iff, toInt_immS]
  omega

theorem immFitsBranch_immB : immFitsBranch (immB w) = true := by
  have hw := w.isLt
  rw [immFitsBranch_iff, toInt_immB]
  omega

theorem immFits20_immU : immFits20 (immU w) = true := by
  have hw := w.isLt
  rw [immFits20_iff, toInt_immU]
  omega

theorem immFitsJump_immJ : immFitsJump (immJ w) = true := by
  have hw := w.isLt
  rw [immFitsJump_iff, toInt_immJ]
  omega

end Accepted

/-- An assembler reads no more bits than its format's range has. -/
theorem wellFormed_rowRecord (m : Mnemonic) (w : Word) : (rowRecord m w).wellFormed = true := by
  cases m with
  | add | sub => rfl
  | addi | jalr | lw => exact immFits12_immI w
  | sw => exact immFits12_immS w
  | beq => exact immFitsBranch_immB w
  | lui | auipc => exact immFits20_immU w
  | jal => exact immFitsJump_immJ w

/-- Settles O26: a decoded record is its row's (`eq_rowRecord_of_decode`), and those are well-formed. -/
theorem decodedRecordsAreWellFormed : Obligations.DecodedRecordsAreWellFormed := by
  intro w i h
  rw [eq_rowRecord_of_decode h]
  exact wellFormed_rowRecord i.mnemonic w

/-! ### The round trips (43_decoder.md R137, R138) -/

/-- A word of a row is packed again from its own fields: the row's constants are what the selecting fields
hold (`unpackedFieldsPackAgain`). -/
theorem packRecord_rowRecord {m : Mnemonic} {w : Word} (h : matchesRow m w = true) :
    packRecord (rowRecord m w) = w := by
  rw [matchesRow_iff] at h
  cases m with
  | add | sub =>
    obtain ⟨hop, h3, h7⟩ := h
    simp only [rowRecord, packRecord, ← hop, ← h3, ← h7, packR_fields]
  | addi | jalr | lw | sw | beq =>
    obtain ⟨hop, h3⟩ := h
    simp only [rowRecord, packRecord, ← hop, ← h3, packI_fields, packS_fields, packB_fields]
  | lui | auipc | jal => simp only [rowRecord, packRecord, ← h, packU_fields, packJ_fields]

/-- The decoder, said once for both directions: a word decodes to the well-formed record it is packed
from. -/
theorem decode_eq_ok_iff {w : Word} {i : Instr} :
    decode w = .ok i ↔ i.wellFormed = true ∧ w = packRecord i := by
  constructor
  · intro h
    have hpack : packRecord (rowRecord i.mnemonic w) = w := packRecord_rowRecord (matchesRow_of_decode h)
    rw [← eq_rowRecord_of_decode h] at hpack
    exact ⟨decodedRecordsAreWellFormed w i h, hpack.symm⟩
  · rintro ⟨hwf, rfl⟩
    exact decode_packRecord hwf

/-- A call with a record's own fields asks for that record. -/
theorem operandRecord_flatten (i : Instr) :
    operandRecord i.mnemonic (regArg (flatten i).rd) (regArg (flatten i).rs1) (regArg (flatten i).rs2)
      (flatten i).imm = i := by
  cases i <;> simp [operandRecord, Instr.mnemonic, flatten, flatR, flatI, flatSB, flatUJ]

/-- A record's registers are in range by their type, so only its immediate can be refused. -/
theorem encode_eq_ok_iff {w : Word} {i : Instr} :
    encode i = .ok w ↔ i.wellFormed = true ∧ w = packRecord i := by
  have hregs : RegsInRange i.mnemonic (regArg (flatten i).rd) (regArg (flatten i).rs1)
      (regArg (flatten i).rs2) :=
    ⟨fun _ => Laws.EncodeDefined.regArg_lt _, fun _ => Laws.EncodeDefined.regArg_lt _,
      fun _ => Laws.EncodeDefined.regArg_lt _⟩
  rw [← encodeBy_record, encodeBy_eq_ok_iff, ← wellFormed_operandRecord, operandRecord_flatten]
  exact and_iff_right hregs

/-- Encode and decode are the same relation between words and records. -/
theorem encode_eq_ok_iff_decode {w : Word} {i : Instr} : encode i = .ok w ↔ decode w = .ok i :=
  encode_eq_ok_iff.trans decode_eq_ok_iff.symm

/-- Settles O27: the record's word is its packed form, which the decoder reads back. -/
theorem decodeAfterEncodeGivesTheRecord : Obligations.DecodeAfterEncodeGivesTheRecord :=
  fun i hwf => ⟨packRecord i, encode_eq_ok_iff.2 ⟨hwf, rfl⟩, decode_packRecord hwf⟩

/-- Settles O28: a decoded word is the packed form of its record, which is what encode answers. -/
theorem encodeAfterDecodeGivesTheWord : Obligations.EncodeAfterDecodeGivesTheWord :=
  fun _ _ h => encode_eq_ok_iff_decode.2 h

/-- Settles O30: each example word is the packed form of its well-formed record. -/
theorem exampleWordsDecode : Obligations.ExampleWordsDecode := by
  simp only [Obligations.ExampleWordsDecode, decode_eq_ok_iff]
  decide

end Sys2Proof
end

section
/-! PROOFS. What the ten instructions drive, what a step runs, and the round trips on the ports
(44_interfaces.md R150 to R156; 43_decoder.md R137, R138). -/

namespace Sys2Proof.Machine

/-! ### The meanings: each drives the flattened form of its record (`exec_eq`) -/

/-- Settles O31: format R drives no immediate. -/
theorem addSubDriveTheirRecord : Obligations.AddSubDriveTheirRecord :=
  fun rd rs1 rs2 s => ⟨exec_eq (.add rd rs1 rs2) s, exec_eq (.sub rd rs1 rs2) s⟩

/-- Settles O32: format I drives no `rs2`. -/
theorem addiJalrLwDriveTheirRecord : Obligations.AddiJalrLwDriveTheirRecord :=
  fun rd rs1 imm s =>
    ⟨exec_eq (.addi rd rs1 imm) s, exec_eq (.jalr rd rs1 imm) s, exec_eq (.lw rd rs1 imm) s⟩

/-- Settles O33: formats S and B drive no `rd`. -/
theorem swBeqDriveTheirRecord : Obligations.SwBeqDriveTheirRecord :=
  fun rs1 rs2 imm s => ⟨exec_eq (.sw rs1 rs2 imm) s, exec_eq (.beq rs1 rs2 imm) s⟩

/-- Settles O34: formats U and J drive no `rs1` and no `rs2`. -/
theorem luiAuipcJalDriveTheirRecord : Obligations.LuiAuipcJalDriveTheirRecord :=
  fun rd imm s => ⟨exec_eq (.lui rd imm) s, exec_eq (.auipc rd imm) s, exec_eq (.jal rd imm) s⟩

/-! ### The step -/

/-- Settles O38: after the encoder has settled, a record is driven by its meaning (`exec_eq`) and an error is
reported with no record. -/
theorem stepRunsTheDecodedInstruction : Obligations.StepRunsTheDecodedInstruction := by
  intro s
  refine ⟨fun i h => ?_, fun e h => ?_⟩
  · rw [step_eq, ← driveRecord_settleEncoder h, exec_eq]
    rfl
  · rw [step_eq, ← reportError_settleEncoder h]
    rfl

theorem eq_settleOutputs_of_step {s t : State} (h : step s = .next t) : t = settleOutputs s := by
  rw [step_eq] at h
  exact (Host.Outcome.next.inj h).symm

/-! ### Status 0 on the ports is a success (60_exceptions.md R185) -/

theorem statusCode_errorStatus_ne_zero (e : CodecError) : statusCode (errorStatus e) ≠ 0 := by
  cases e <;> decide

theorem encodeBy_of_status_zero {p : EncIn} {m : Mnemonic} (hsel : mnemonicOfSel p.sel = some m)
    (h : (encoderUnit p).status = 0) :
    encodeBy m p.rd p.rs1 p.rs2 p.imm = .ok (encoderUnit p).word := by
  cases hm : encodeBy m p.rd p.rs1 p.rs2 p.imm with
  | ok w => rw [encoderUnit_of_ok hsel hm]
  | error e =>
    rw [encoderUnit_of_error hsel hm] at h
    exact absurd h (statusCode_errorStatus_ne_zero e)

theorem exists_decode_of_status_zero {w : Word} (h : (decoderUnit w).status = 0) :
    ∃ i, decode w = .ok i := by
  cases hd : decode w with
  | ok i => exact ⟨i, rfl⟩
  | error e =>
    rw [decoderUnit_of_error hd] at h
    exact absurd h (statusCode_errorStatus_ne_zero e)

/-! ### The round trips on the ports -/

/-- The ports of a call's record carry the operands the mnemonic takes, and 0 for the others: nothing of a
register in range is lost in its index. -/
theorem flatten_operandRecord {m : Mnemonic} {rd rs1 rs2 : RegArg} {imm : S32}
    (h : RegsInRange m rd rs1 rs2) :
    regArg (flatten (operandRecord m rd rs1 rs2 imm)).rd = (if takesRd m then rd else 0) ∧
    regArg (flatten (operandRecord m rd rs1 rs2 imm)).rs1 = (if takesRs1 m then rs1 else 0) ∧
    regArg (flatten (operandRecord m rd rs1 rs2 imm)).rs2 = (if takesRs2 m then rs2 else 0) ∧
    (flatten (operandRecord m rd rs1 rs2 imm)).imm = (if takesImm m then imm else 0) := by
  obtain ⟨hrd, hrs1, hrs2⟩ := h
  cases m with
  | add | sub =>
    exact ⟨regArg_regIndex (hrd rfl), regArg_regIndex (hrs1 rfl), regArg_regIndex (hrs2 rfl), rfl⟩
  | addi | jalr | lw => exact ⟨regArg_regIndex (hrd rfl), regArg_regIndex (hrs1 rfl), rfl, rfl⟩
  | sw | beq => exact ⟨rfl, regArg_regIndex (hrs1 rfl), regArg_regIndex (hrs2 rfl), rfl⟩
  | lui | auipc | jal => exact ⟨regArg_regIndex (hrd rfl), rfl, rfl, rfl⟩

/-- Settles O48: status 0 means that the entry point answered the word, so the decoder reads the operands'
record (`decode_of_encodeBy`), whose ports are the operands (`flatten_operandRecord`). -/
theorem encodedWordFedBackDrivesItsOperands : Obligations.EncodedWordFedBackDrivesItsOperands := by
  intro s t m hsel hstep hstatus
  obtain rfl := eq_settleOutputs_of_step hstep
  have hm : mnemonicOfSel s.encIn.sel = some m := by rw [hsel, mnemonicOfSel_variantCode]
  have hword := encodeBy_of_status_zero hm hstatus
  obtain ⟨hregs, -, -⟩ := encodeBy_eq_ok_iff.1 hword
  have hdec := decoderUnit_of_ok (decode_of_encodeBy hword)
  refine ⟨_, step_eq _, ?_⟩
  simp only [settleOutputs_decOut, settleOutputs_encOut, presentWord_decWord, hdec]
  refine ⟨rfl, ?_, flatten_operandRecord hregs⟩
  rw [hsel]
  exact (flatten_variant _).trans (by rw [mnemonic_operandRecord])

/-- Settles O49: status 0 means that the word decoded to a record; the record's variant code selects its entry
point, and that answers the word (`encodeAfterDecodeGivesTheWord`). -/
theorem decodedRecordFedBackGivesItsWord : Obligations.DecodedRecordFedBackGivesItsWord := by
  intro s t hstep hstatus
  obtain rfl := eq_settleOutputs_of_step hstep
  obtain ⟨i, hi⟩ := exists_decode_of_status_zero hstatus
  have hsel : mnemonicOfSel (flatten i).variant = some i.mnemonic := by
    rw [flatten_variant, mnemonicOfSel_variantCode]
  have hword := (encodeBy_record i).trans (encodeAfterDecodeGivesTheWord _ i hi)
  refine ⟨_, step_eq _, ?_⟩
  rw [settleOutputs_encOut, presentEncode_encIn, settleOutputs_decOut, decoderUnit_of_ok hi]
  exact encoderUnit_of_ok hsel hword

end Sys2Proof.Machine
end

section
/-! PROOFS. What stands on the ports after a step: settled outputs, each unit's own inputs, the codes and the
zero fill (44_interfaces.md R151 to R158, R164). -/

namespace Sys2Proof.Machine

/-! ### A step settles the outputs, each unit from its own inputs (44_interfaces.md R151, R152, R164) -/

theorem settled_settleOutputs (s : State) : Settled (settleOutputs s) :=
  ⟨settleOutputs_encOut s, settleOutputs_decOut s⟩

/-- Settles O39: a step answers `settleOutputs`, whatever stood on the outputs. -/
theorem everyStepSettlesTheOutputs : Obligations.EveryStepSettlesTheOutputs := fun s =>
  ⟨settleOutputs s, step_eq s, settled_settleOutputs s, settleOutputs_encIn s, settleOutputs_decWord s⟩

/-- Settles O43: after a step each output is a function of its own unit's inputs. -/
theorem eachUnitReadsOnlyItsOwnInputs : Obligations.EachUnitReadsOnlyItsOwnInputs := by
  intro s s' t t' hstep hstep'
  obtain rfl := eq_settleOutputs_of_step hstep
  obtain rfl := eq_settleOutputs_of_step hstep'
  exact ⟨congrArg encoderUnit, congrArg decoderUnit⟩

theorem eq_driveRecord_of_exec {i : Instr} {s t : State} (h : exec i s = .next t) :
    t = driveRecord (flatten i) s := by
  rw [exec_eq] at h
  exact (Host.Outcome.next.inj h).symm

/-- Settles O35: an instruction drives its own flattened record and nothing else. -/
theorem instructionsChangeOnlyTheDecoderOutputs : Obligations.InstructionsChangeOnlyTheDecoderOutputs := by
  intro i s s' t t' h h'
  obtain rfl := eq_driveRecord_of_exec h
  obtain rfl := eq_driveRecord_of_exec h'
  exact ⟨driveRecord_encIn s _, driveRecord_encOut s _, driveRecord_decWord s _, rfl⟩

/-! ### The record ports (44_interfaces.md R153, R156) -/

/-- Settles O36: the record driven is the flattened record of the word's own row, one format per row. -/
theorem fieldsAVariantLacksAreZero : Obligations.FieldsAVariantLacksAreZero := by
  intro s i h
  obtain ⟨m, rfl⟩ : ∃ m, i = rowRecord m s.decWord := ⟨_, eq_rowRecord_of_decode h⟩
  refine ⟨_, step_eq s, ?_⟩
  rw [settleOutputs_decOut, decoderUnit_of_ok h]
  cases m <;> exact ⟨rfl, rfl, rfl, rfl⟩

theorem variantCode_injective : Function.Injective variantCode := fun m m' h =>
  Option.some.inj (by rw [← mnemonicOfSel_variantCode m, h, mnemonicOfSel_variantCode])

/-- Settles O37: the variant code gives the mnemonic, and the mnemonic with the flattened fields gives the
record (`operandRecord_flatten`). -/
theorem flattenedRecordDeterminesTheInstruction : Obligations.FlattenedRecordDeterminesTheInstruction := by
  intro i j h
  have hm : i.mnemonic = j.mnemonic :=
    variantCode_injective (by rw [← flatten_variant, h, flatten_variant])
  rw [← operandRecord_flatten i, hm, h, operandRecord_flatten]

/-! ### The encoder ports (44_interfaces.md R151, R155, R157, R158) -/

/-- Settles O44: one equation of the encoder unit per answer of the selected entry point. -/
theorem encoderPortsRenderTheSelectedEntryPoint : Obligations.EncoderPortsRenderTheSelectedEntryPoint := by
  intro s m hsel
  have hm : mnemonicOfSel s.encIn.sel = some m := by rw [hsel, mnemonicOfSel_variantCode]
  exact ⟨settleOutputs s, step_eq s, fun _ => encoderUnit_of_ok hm, encoderUnit_of_error hm,
    encoderUnit_of_error hm⟩

/-- Settles O45: a selector from 10 up selects no entry point. -/
theorem reservedSelectorGivesUnknown : Obligations.ReservedSelectorGivesUnknown := fun s hsel =>
  ⟨settleOutputs s, step_eq s, encoderUnit_of_reserved ((mnemonicOfSel_eq_none_iff _).2 hsel)⟩

/-- An entry point is handed the operands it takes and no others (44_interfaces.md R157). -/
theorem encodeBy_congr {m : Mnemonic} {rd rs1 rs2 rd' rs1' rs2' : RegArg} {imm imm' : S32}
    (hrd : takesRd m = true → rd = rd') (hrs1 : takesRs1 m = true → rs1 = rs1')
    (hrs2 : takesRs2 m = true → rs2 = rs2') (himm : takesImm m = true → imm = imm') :
    encodeBy m rd rs1 rs2 imm = encodeBy m rd' rs1' rs2' imm' := by
  cases m with
  | add | sub => simp only [encodeBy, hrd rfl, hrs1 rfl, hrs2 rfl]
  | addi | jalr | lw => simp only [encodeBy, hrd rfl, hrs1 rfl, himm rfl]
  | sw | beq => simp only [encodeBy, hrs1 rfl, hrs2 rfl, himm rfl]
  | lui | auipc | jal => simp only [encodeBy, hrd rfl, himm rfl]

/-- Settles O46: both inputs make the same call (`encodeBy_congr`), and the ports render its answer. -/
theorem untakenOperandsAreIgnored : Obligations.UntakenOperandsAreIgnored := by
  intro p q m hp hq hrd hrs1 hrs2 himm
  have hmp : mnemonicOfSel p.sel = some m := by rw [hp, mnemonicOfSel_variantCode]
  have hmq : mnemonicOfSel q.sel = some m := by rw [hq, mnemonicOfSel_variantCode]
  have hcall := encodeBy_congr hrd hrs1 hrs2 himm
  cases h : encodeBy m q.rd q.rs1 q.rs2 q.imm with
  | ok w => rw [encoderUnit_of_ok hmp (hcall.trans h), encoderUnit_of_ok hmq h]
  | error e => rw [encoderUnit_of_error hmp (hcall.trans h), encoderUnit_of_error hmq h]

/-! ### The codes the block can produce (60_exceptions.md R170, R175, R176, R185) -/

/-- Word 0 is no encoded instruction: the decoder reads back what the encoder packs, and it rejects word 0. -/
theorem ne_zero_of_encodeBy {m : Mnemonic} {rd rs1 rs2 : RegArg} {imm : S32} {w : Word}
    (h : encodeBy m rd rs1 rs2 imm = .ok w) : w ≠ 0 := by
  rintro rfl
  have hzero : decode 0 = .error .badOpcode := decode_reset
  cases hzero.symm.trans (decode_of_encodeBy h)

/-- The encoder returns its own two errors only (60_exceptions.md R171, R172). -/
theorem error_of_encodeBy {m : Mnemonic} {rd rs1 rs2 : RegArg} {imm : S32} {e : CodecError}
    (h : encodeBy m rd rs1 rs2 imm = .error e) : e = .badReg ∨ e = .immOutOfRange := by
  rw [encodeBy_eq] at h
  split_ifs at h with hregs himm
  · exact .inr (Except.error.inj h).symm
  · exact .inl (Except.error.inj h).symm

/-- Everything the encoder unit can drive. -/
theorem encoderUnit_cases (p : EncIn) :
    10 ≤ p.sel.toNat ∧ encoderUnit p = { status := 6, word := 0 } ∨
    p.sel.toNat < 10 ∧
      ((∃ w, w ≠ 0 ∧ encoderUnit p = { status := 0, word := w }) ∨
        encoderUnit p = { status := 1, word := 0 } ∨ encoderUnit p = { status := 2, word := 0 }) := by
  cases hsel : mnemonicOfSel p.sel with
  | none => exact .inl ⟨(mnemonicOfSel_eq_none_iff _).1 hsel, encoderUnit_of_reserved hsel⟩
  | some m =>
    have hlt : p.sel.toNat < 10 := by
      rw [← not_le, ← mnemonicOfSel_eq_none_iff, hsel]
      exact Option.some_ne_none m
    refine .inr ⟨hlt, ?_⟩
    cases h : encodeBy m p.rd p.rs1 p.rs2 p.imm with
    | ok w => exact .inl ⟨w, ne_zero_of_encodeBy h, encoderUnit_of_ok hsel h⟩
    | error e =>
      obtain rfl | rfl := error_of_encodeBy h
      · exact .inr (.inl (encoderUnit_of_error hsel h))
      · exact .inr (.inr (encoderUnit_of_error hsel h))

/-- Everything the decoder unit can drive. -/
theorem decoderUnit_cases (w : Word) :
    (∃ i, decoderUnit w = recordOut (flatten i)) ∨ decoderUnit w = errorOut .badOpcode ∨
      decoderUnit w = errorOut .badFunct := by
  obtain ⟨i, h⟩ | h | h := decode_total w
  · exact .inl ⟨i, decoderUnit_of_ok h⟩
  · exact .inr (.inl (decoderUnit_of_error h))
  · exact .inr (.inr (decoderUnit_of_error h))

theorem toNat_variantCode_le (m : Mnemonic) : (variantCode m).toNat ≤ 9 := by
  cases m <;> decide

/-- The encoder's codes of `Obligations.PortCodesAreThoseTheBlockProduces`. -/
theorem encoderUnit_codes (p : EncIn) :
    ((encoderUnit p).status = 0 ∨ (encoderUnit p).status = 1 ∨ (encoderUnit p).status = 2 ∨
      (encoderUnit p).status = 6) ∧
    ((encoderUnit p).status = 6 ↔ 10 ≤ p.sel.toNat) ∧
    ((encoderUnit p).status = 0 ↔ (encoderUnit p).word ≠ 0) := by
  obtain ⟨hsel, h⟩ | ⟨hsel, ⟨w, hw, h⟩ | h | h⟩ := encoderUnit_cases p
  · simp [h, hsel]
  · simpa [h, hsel] using hw
  · simp [h, hsel]
  · simp [h, hsel]

/-- The decoder's codes of `Obligations.PortCodesAreThoseTheBlockProduces`. -/
theorem decoderUnit_codes (w : Word) :
    ((decoderUnit w).status = 0 ∨ (decoderUnit w).status = 3 ∨ (decoderUnit w).status = 4) ∧
    ((decoderUnit w).status = 0 → (decoderUnit w).record.variant.toNat ≤ 9) ∧
    ((decoderUnit w).status ≠ 0 →
      (decoderUnit w).record = { variant := 15, rd := 0, rs1 := 0, rs2 := 0, imm := 0 }) := by
  obtain ⟨i, h⟩ | h | h := decoderUnit_cases w
  · rw [h]
    refine ⟨.inl rfl, fun _ => ?_, fun hne => absurd rfl hne⟩
    exact (flatten_variant i).symm ▸ toNat_variantCode_le i.mnemonic
  · rw [h]
    decide
  · rw [h]
    decide

/-- Settles O47: the codes of each unit's outputs, which are what a step leaves on the ports. -/
theorem portCodesAreThoseTheBlockProduces : Obligations.PortCodesAreThoseTheBlockProduces := by
  intro s t hstep
  obtain rfl := eq_settleOutputs_of_step hstep
  obtain ⟨hstatus, hreserved, hword⟩ := encoderUnit_codes s.encIn
  exact ⟨hstatus, hreserved, hword, decoderUnit_codes s.decWord⟩

end Sys2Proof.Machine
end

section
/-! PROOFS. The seam to the boundary adapter (44_interfaces.md R159 to R161): both of its calls return a status
by the same rule. -/

namespace Sys2Proof.Machine

/-! ### With a location given (44_interfaces.md R159, R160) -/

/-- Settles O50: the word on success, the old content on failure. -/
theorem boundaryWritesTheWordOnlyOnSuccess : Obligations.BoundaryWritesTheWordOnlyOnSuccess := by
  intro m rd rs1 rs2 imm old
  constructor
  · intro w h
    simp only [boundaryEncode, h]
  · intro e h
    simp only [boundaryEncode, h]

/-- Settles O51: the flattened record on success, the block's status on failure. -/
theorem boundaryWritesTheFlattenedRecord : Obligations.BoundaryWritesTheFlattenedRecord := by
  intro w old
  constructor
  · intro i h
    simp only [boundaryDecode, h]
  · intro e h
    simp only [boundaryDecode, h]

/-! ### The status of a call (44_interfaces.md R161) -/

/-- The status a boundary call returns, from the caller's location and the block's answer.
`boundaryEncode_status` and `boundaryDecode_status` tie it to the model. -/
def statusOfCall {α β : Type} (nullFirst : Bool) (location : Option β) (answer : Except CodecError α) :
    Status :=
  match location, answer with
  | some _, .ok _ => .ok
  | some _, .error e => errorStatus e
  | none, .ok _ => nullStatus nullFirst none
  | none, .error e => nullStatus nullFirst (some e)

theorem boundaryEncode_status (m : Mnemonic) (rd rs1 rs2 : RegArg) (imm : S32) (location : Option Word) :
    (boundaryEncode m rd rs1 rs2 imm location).1 =
      statusOfCall (Config.nullTestedFirstOnEncode m) location (encodeBy m rd rs1 rs2 imm) := by
  unfold boundaryEncode statusOfCall
  cases location <;> cases encodeBy m rd rs1 rs2 imm <;> rfl

theorem boundaryDecode_status (w : Word) (location : Option FlatRecord) :
    (boundaryDecode w location).1 = statusOfCall Config.nullTestedFirstOnDecode location (decode w) := by
  unfold boundaryDecode statusOfCall
  cases location <;> cases decode w <;> rfl

theorem boundaryEncode_none_location (m : Mnemonic) (rd rs1 rs2 : RegArg) (imm : S32) :
    (boundaryEncode m rd rs1 rs2 imm none).2 = none := by
  unfold boundaryEncode
  cases encodeBy m rd rs1 rs2 imm <;> rfl

theorem boundaryDecode_none_location (w : Word) : (boundaryDecode w none).2 = none := by
  unfold boundaryDecode
  cases decode w <;> rfl

section Status
variable {α β : Type} {nullFirst : Bool} {location : Option β} {answer : Except CodecError α}

/-- With a location given, the status is the block's own. -/
theorem statusOfCall_of_ne_none (h : location ≠ none) :
    (∀ a, answer = .ok a → statusOfCall nullFirst location answer = .ok) ∧
    (∀ e, answer = .error e → statusOfCall nullFirst location answer = errorStatus e) := by
  obtain ⟨v, rfl⟩ := Option.ne_none_iff_exists'.1 h
  constructor
  · rintro a rfl
    rfl
  · rintro e rfl
    rfl

/-- With a null location an accepted call reports it; for a failing one the order of the two tests decides. -/
theorem statusOfCall_none :
    (∀ a, answer = .ok a → statusOfCall nullFirst (none : Option β) answer = .nullOutputPointer) ∧
    (∀ e, answer = .error e →
      statusOfCall nullFirst (none : Option β) answer = .nullOutputPointer ∨
        statusOfCall nullFirst (none : Option β) answer = errorStatus e) := by
  constructor
  · rintro a rfl
    cases nullFirst <;> rfl
  · rintro e rfl
    cases nullFirst with
    | false => exact .inr rfl
    | true => exact .inl rfl

/-- The block has no error that is reported as NullOutputPointer (60_exceptions.md R175). -/
theorem errorStatus_ne_nullOutputPointer (e : CodecError) : errorStatus e ≠ .nullOutputPointer := by
  cases e <;> decide

theorem location_eq_none_of_statusOfCall
    (h : statusOfCall nullFirst location answer = .nullOutputPointer) : location = none := by
  by_contra hne
  obtain ⟨hok, herror⟩ := statusOfCall_of_ne_none (nullFirst := nullFirst) (answer := answer) hne
  cases answer with
  | ok a => cases (hok a rfl).symm.trans h
  | error e => exact errorStatus_ne_nullOutputPointer e ((herror e rfl).symm.trans h)

end Status

/-- Settles O52: both calls return their status by `statusOfCall`, and neither writes to a null location. -/
theorem nullLocationIsTheOnlyAddedCondition : Obligations.NullLocationIsTheOnlyAddedCondition := by
  refine ⟨fun m rd rs1 rs2 imm location => ?_, fun w location => ?_⟩
  · rw [boundaryEncode_status]
    refine ⟨location_eq_none_of_statusOfCall, statusOfCall_of_ne_none, ?_⟩
    rintro rfl
    exact ⟨boundaryEncode_none_location m rd rs1 rs2 imm, statusOfCall_none⟩
  · rw [boundaryDecode_status]
    refine ⟨location_eq_none_of_statusOfCall, statusOfCall_of_ne_none, ?_⟩
    rintro rfl
    exact ⟨boundaryDecode_none_location w, statusOfCall_none⟩

end Sys2Proof.Machine
end
